-- ==== Sys2Proof/Word.lean ====
section
/-! DEFINITION. The bit-vector types of the machine (spec 10_state.md, 30_encoding.md). Every value is unsigned
(00_scope.md section 7). -/

namespace Sys2Proof

/-- A memory byte, a general register, a timer, an 8-bit immediate `kk`. -/
abbrev Byte := BitVec 8

/-- The index register, the program counter, a return address, an instruction word. -/
abbrev Word := BitVec 16

/-- A 4-bit instruction field that is no register index: `n`, or bits no rule examines (R61). -/
abbrev Nibble := BitVec 4

/-- The index of a general register, `x` or `y`; every value names a register (R11, R61). -/
abbrev Reg := BitVec 4

/-- The 12-bit address operand `nnn` (R61). -/
abbrev Addr := BitVec 12

/-- A key code, 0x0 to 0xF (R20). -/
abbrev Key := BitVec 4

/-- The index of `V[0xF]`, the flag output (R12). -/
abbrev VF : Reg := 0xF#4

end Sys2Proof
end

