-- ==== Sys2Proof/Syntax.lean ====
section
/-! DEFINITION. The 34 instructions of R65, one constructor per row of spec/opcode_table.json. A constructor carries every
field its row names, the bits no rule examines included, so that an instruction and its word determine each other. -/

namespace Sys2Proof

inductive Instr where
  /-- `0-E0` clear the display (R80); bits 11:8 are ignored (R66). -/
  | cls (ignored : Nibble)
  /-- `0-EE` return from subroutine (R81); bits 11:8 are ignored (R66). -/
  | ret (ignored : Nibble)
  /-- `1nnn` jump (R82). -/
  | jpNnn (nnn : Addr)
  /-- `2nnn` call (R83). -/
  | callNnn (nnn : Addr)
  /-- `3xkk` skip if register equals immediate (R90). -/
  | seVxKk (x : Reg) (kk : Byte)
  /-- `4xkk` skip if register differs from immediate (R91). -/
  | sneVxKk (x : Reg) (kk : Byte)
  /-- `5xy0` skip if two registers are equal (R92). -/
  | seVxVy (x y : Reg)
  /-- `6xkk` load immediate (R93). -/
  | ldVxKk (x : Reg) (kk : Byte)
  /-- `7xkk` add immediate (R94). -/
  | addVxKk (x : Reg) (kk : Byte)
  /-- `8xy0` copy (R101). -/
  | ldVxVy (x y : Reg)
  /-- `8xy1` bitwise OR (R102). -/
  | orVxVy (x y : Reg)
  /-- `8xy2` bitwise AND (R103). -/
  | andVxVy (x y : Reg)
  /-- `8xy3` bitwise exclusive OR (R104). -/
  | xorVxVy (x y : Reg)
  /-- `8xy4` add with carry out (R105). -/
  | addVxVy (x y : Reg)
  /-- `8xy5` subtract (R106). -/
  | subVxVy (x y : Reg)
  /-- `8xy6` shift right by one (R107); `y` is present and ignored. -/
  | shrVx (x y : Reg)
  /-- `8xy7` reverse subtract (R108). -/
  | subnVxVy (x y : Reg)
  /-- `8xyE` shift left by one (R109); `y` is present and ignored. -/
  | shlVx (x y : Reg)
  /-- `9xy0` skip if two registers differ (R116). -/
  | sneVxVy (x y : Reg)
  /-- `Annn` load the index register (R117). -/
  | ldINnn (nnn : Addr)
  /-- `Bnnn` jump with register offset (R118); `x` is the top digit of `nnn` (R62, R70). -/
  | jpVxNnn (x : Reg) (nnn : Addr)
  /-- `Cxkk` random byte under a mask (R119). -/
  | rndVxKk (x : Reg) (kk : Byte)
  /-- `Dxyn` draw sprite (R126). -/
  | drwVxVyN (x y : Reg) (n : Nibble)
  /-- `Ex9E` skip if the latched key equals `V[x]` (R136). -/
  | skpVx (x : Reg)
  /-- `ExA1` skip if the latched key differs from `V[x]` (R137). -/
  | sknpVx (x : Reg)
  /-- `Fx07` read the delay timer (R141). -/
  | ldVxDt (x : Reg)
  /-- `Fx0A` wait for a key transition (R142). -/
  | ldVxK (x : Reg)
  /-- `Fx15` write the delay timer (R143). -/
  | ldDtVx (x : Reg)
  /-- `Fx18` write the sound timer (R144). -/
  | ldStVx (x : Reg)
  /-- `Fx1E` add a register to the index register (R145). -/
  | addIVx (x : Reg)
  /-- `Fx29` point the index register at a glyph (R146). -/
  | ldFVx (x : Reg)
  /-- `Fx33` store the three decimal digits (R147). -/
  | ldBVx (x : Reg)
  /-- `Fx55` store `V0` to `Vx` (R148). -/
  | ldMemVx (x : Reg)
  /-- `Fx65` load `V0` to `Vx` (R149). -/
  | ldVxMem (x : Reg)
  deriving DecidableEq, Repr

end Sys2Proof
end

