-- ==== Sys2Proof/WellFormed.lean ====
section
/-! DEFINITION. When an instruction has a word. Each field's width is in its type; the one relation between two fields is
that of `JP Vx,nnn`, whose register is the top digit of its address (R62, R70: "An assembler must reject `JP V2,0x345`"). -/

namespace Sys2Proof

def Instr.wellFormed : Instr → Bool
  | .jpVxNnn x nnn => x == nnn.extractLsb' 8 4
  | .cls _ => true
  | .ret _ => true
  | .jpNnn _ => true
  | .callNnn _ => true
  | .seVxKk _ _ => true
  | .sneVxKk _ _ => true
  | .seVxVy _ _ => true
  | .ldVxKk _ _ => true
  | .addVxKk _ _ => true
  | .ldVxVy _ _ => true
  | .orVxVy _ _ => true
  | .andVxVy _ _ => true
  | .xorVxVy _ _ => true
  | .addVxVy _ _ => true
  | .subVxVy _ _ => true
  | .shrVx _ _ => true
  | .subnVxVy _ _ => true
  | .shlVx _ _ => true
  | .sneVxVy _ _ => true
  | .ldINnn _ => true
  | .rndVxKk _ _ => true
  | .drwVxVyN _ _ _ => true
  | .skpVx _ => true
  | .sknpVx _ => true
  | .ldVxDt _ => true
  | .ldVxK _ => true
  | .ldDtVx _ => true
  | .ldStVx _ => true
  | .addIVx _ => true
  | .ldFVx _ => true
  | .ldBVx _ => true
  | .ldMemVx _ => true
  | .ldVxMem _ => true

end Sys2Proof
end

