-- ==== Sys2Proof/Decode.lean ====
section
/-! DEFINITION. Fields, byte order, decoder and encoder (spec 30_encoding.md; byte order 20_memory.md R45). The decoder is
total: a word is one of the 34 instructions or reserved (R64); a byte sequence is one of these or too short. -/

namespace Sys2Proof

/-- `k`, bits 15:12 (R61). -/
def fieldK (w : Word) : Nibble := w.extractLsb' 12 4

/-- `x`, bits 11:8 (R61, D3). -/
def fieldX (w : Word) : Reg := w.extractLsb' 8 4

/-- `y`, bits 7:4 (R61, D3). -/
def fieldY (w : Word) : Reg := w.extractLsb' 4 4

/-- `n`, bits 3:0 (R61). -/
def fieldN (w : Word) : Nibble := w.extractLsb' 0 4

/-- `kk`, bits 7:0 (R61). -/
def fieldKK (w : Word) : Byte := w.extractLsb' 0 8

/-- `nnn`, bits 11:0 (R61). -/
def fieldNNN (w : Word) : Addr := w.extractLsb' 0 12

/-- The instruction word of two bytes in memory order: the first is the high byte (R45, D3). -/
def wordOfBytes (first second : Byte) : Word := first ++ second

/-- The two bytes of a word in memory order (R45). -/
def bytesOfWord (w : Word) : List Byte := [w.extractLsb' 8 8, w.extractLsb' 0 8]

/-- Family 0x0: the sub-key is the low byte; bits 11:8 are kept and not examined (R64, R66, D20). -/
def decodeFamily0 (ignored : Nibble) (kk : Byte) : Option Instr :=
  if kk = 0xE0#8 then some (.cls ignored)
  else if kk = 0xEE#8 then some (.ret ignored)
  else none

/-- Family 0x8: the sub-key is the low nibble (R64). -/
def decodeFamily8 (x y : Reg) (n : Nibble) : Option Instr :=
  if n = 0x0#4 then some (.ldVxVy x y)
  else if n = 0x1#4 then some (.orVxVy x y)
  else if n = 0x2#4 then some (.andVxVy x y)
  else if n = 0x3#4 then some (.xorVxVy x y)
  else if n = 0x4#4 then some (.addVxVy x y)
  else if n = 0x5#4 then some (.subVxVy x y)
  else if n = 0x6#4 then some (.shrVx x y)
  else if n = 0x7#4 then some (.subnVxVy x y)
  else if n = 0xE#4 then some (.shlVx x y)
  else none

/-- Family 0xE: the sub-key is the low byte (R64). -/
def decodeFamilyE (x : Reg) (kk : Byte) : Option Instr :=
  if kk = 0x9E#8 then some (.skpVx x)
  else if kk = 0xA1#8 then some (.sknpVx x)
  else none

/-- Family 0xF: the sub-key is the low byte (R64). -/
def decodeFamilyF (x : Reg) (kk : Byte) : Option Instr :=
  if kk = 0x07#8 then some (.ldVxDt x)
  else if kk = 0x0A#8 then some (.ldVxK x)
  else if kk = 0x15#8 then some (.ldDtVx x)
  else if kk = 0x18#8 then some (.ldStVx x)
  else if kk = 0x1E#8 then some (.addIVx x)
  else if kk = 0x29#8 then some (.ldFVx x)
  else if kk = 0x33#8 then some (.ldBVx x)
  else if kk = 0x55#8 then some (.ldMemVx x)
  else if kk = 0x65#8 then some (.ldVxMem x)
  else none

/-- The dispatch of R64 over the fields of a word; `none` is RESERVED. -/
def decodeFields (k : Nibble) (x y : Reg) (n : Nibble) (kk : Byte) (nnn : Addr) : Option Instr :=
  if k = 0x0#4 then decodeFamily0 x kk
  else if k = 0x1#4 then some (.jpNnn nnn)
  else if k = 0x2#4 then some (.callNnn nnn)
  else if k = 0x3#4 then some (.seVxKk x kk)
  else if k = 0x4#4 then some (.sneVxKk x kk)
  else if k = 0x5#4 then if n = 0x0#4 then some (.seVxVy x y) else none
  else if k = 0x6#4 then some (.ldVxKk x kk)
  else if k = 0x7#4 then some (.addVxKk x kk)
  else if k = 0x8#4 then decodeFamily8 x y n
  else if k = 0x9#4 then if n = 0x0#4 then some (.sneVxVy x y) else none
  else if k = 0xA#4 then some (.ldINnn nnn)
  else if k = 0xB#4 then some (.jpVxNnn x nnn)
  else if k = 0xC#4 then some (.rndVxKk x kk)
  else if k = 0xD#4 then some (.drwVxVyN x y n)
  else if k = 0xE#4 then decodeFamilyE x kk
  else decodeFamilyF x kk

/-- `Decode(w)` (R64): the instruction, or `none` for RESERVED (R67). -/
def decodeWord (w : Word) : Option Instr :=
  decodeFields (fieldK w) (fieldX w) (fieldY w) (fieldN w) (fieldKK w) (fieldNNN w)

/-- What a byte sequence begins with. -/
inductive Decoded where
  /-- An instruction, and the bytes after it. -/
  | instr (i : Instr) (rest : List Byte)
  /-- A reserved word (R67), and the bytes after it. -/
  | reserved (w : Word) (rest : List Byte)
  /-- Fewer than the two bytes every instruction has (R60). -/
  | truncated (bytes : List Byte)
  deriving DecidableEq, Repr

/-- Decoding of any bytes, high byte first (R45, R60, R64). -/
def decodeBytes : List Byte → Decoded
  | first :: second :: rest =>
    match decodeWord (wordOfBytes first second) with
    | some i => .instr i rest
    | none => .reserved (wordOfBytes first second) rest
  | bytes => .truncated bytes

/-- The word of an instruction with register, register and low nibble fields (formats XY, XYN of R62). -/
def wordXYN (k : Nibble) (x y : Reg) (n : Nibble) : Word := k ++ x ++ y ++ n

/-- The word of an instruction with a register and a low byte (formats OP, XKK, XS of R62). -/
def wordXKK (k : Nibble) (x : Reg) (kk : Byte) : Word := k ++ x ++ kk

/-- The word of an instruction with an address (formats NNN, XNNN of R62). -/
def wordNNN (k : Nibble) (nnn : Addr) : Word := k ++ nnn

/-- The word of an instruction, from the patterns of R65. The register of `JP Vx,nnn` is in its address already. -/
def encode : Instr → Word
  | .cls ignored => wordXKK 0x0#4 ignored 0xE0#8
  | .ret ignored => wordXKK 0x0#4 ignored 0xEE#8
  | .jpNnn nnn => wordNNN 0x1#4 nnn
  | .callNnn nnn => wordNNN 0x2#4 nnn
  | .seVxKk x kk => wordXKK 0x3#4 x kk
  | .sneVxKk x kk => wordXKK 0x4#4 x kk
  | .seVxVy x y => wordXYN 0x5#4 x y 0x0#4
  | .ldVxKk x kk => wordXKK 0x6#4 x kk
  | .addVxKk x kk => wordXKK 0x7#4 x kk
  | .ldVxVy x y => wordXYN 0x8#4 x y 0x0#4
  | .orVxVy x y => wordXYN 0x8#4 x y 0x1#4
  | .andVxVy x y => wordXYN 0x8#4 x y 0x2#4
  | .xorVxVy x y => wordXYN 0x8#4 x y 0x3#4
  | .addVxVy x y => wordXYN 0x8#4 x y 0x4#4
  | .subVxVy x y => wordXYN 0x8#4 x y 0x5#4
  | .shrVx x y => wordXYN 0x8#4 x y 0x6#4
  | .subnVxVy x y => wordXYN 0x8#4 x y 0x7#4
  | .shlVx x y => wordXYN 0x8#4 x y 0xE#4
  | .sneVxVy x y => wordXYN 0x9#4 x y 0x0#4
  | .ldINnn nnn => wordNNN 0xA#4 nnn
  | .jpVxNnn _ nnn => wordNNN 0xB#4 nnn
  | .rndVxKk x kk => wordXKK 0xC#4 x kk
  | .drwVxVyN x y n => wordXYN 0xD#4 x y n
  | .skpVx x => wordXKK 0xE#4 x 0x9E#8
  | .sknpVx x => wordXKK 0xE#4 x 0xA1#8
  | .ldVxDt x => wordXKK 0xF#4 x 0x07#8
  | .ldVxK x => wordXKK 0xF#4 x 0x0A#8
  | .ldDtVx x => wordXKK 0xF#4 x 0x15#8
  | .ldStVx x => wordXKK 0xF#4 x 0x18#8
  | .addIVx x => wordXKK 0xF#4 x 0x1E#8
  | .ldFVx x => wordXKK 0xF#4 x 0x29#8
  | .ldBVx x => wordXKK 0xF#4 x 0x33#8
  | .ldMemVx x => wordXKK 0xF#4 x 0x55#8
  | .ldVxMem x => wordXKK 0xF#4 x 0x65#8

/-- The mask and match of an instruction's row in the opcode map (R65). -/
def Instr.row : Instr → Word × Word
  | .cls _ => (0xF0FF#16, 0x00E0#16)
  | .ret _ => (0xF0FF#16, 0x00EE#16)
  | .jpNnn _ => (0xF000#16, 0x1000#16)
  | .callNnn _ => (0xF000#16, 0x2000#16)
  | .seVxKk _ _ => (0xF000#16, 0x3000#16)
  | .sneVxKk _ _ => (0xF000#16, 0x4000#16)
  | .seVxVy _ _ => (0xF00F#16, 0x5000#16)
  | .ldVxKk _ _ => (0xF000#16, 0x6000#16)
  | .addVxKk _ _ => (0xF000#16, 0x7000#16)
  | .ldVxVy _ _ => (0xF00F#16, 0x8000#16)
  | .orVxVy _ _ => (0xF00F#16, 0x8001#16)
  | .andVxVy _ _ => (0xF00F#16, 0x8002#16)
  | .xorVxVy _ _ => (0xF00F#16, 0x8003#16)
  | .addVxVy _ _ => (0xF00F#16, 0x8004#16)
  | .subVxVy _ _ => (0xF00F#16, 0x8005#16)
  | .shrVx _ _ => (0xF00F#16, 0x8006#16)
  | .subnVxVy _ _ => (0xF00F#16, 0x8007#16)
  | .shlVx _ _ => (0xF00F#16, 0x800E#16)
  | .sneVxVy _ _ => (0xF00F#16, 0x9000#16)
  | .ldINnn _ => (0xF000#16, 0xA000#16)
  | .jpVxNnn _ _ => (0xF000#16, 0xB000#16)
  | .rndVxKk _ _ => (0xF000#16, 0xC000#16)
  | .drwVxVyN _ _ _ => (0xF000#16, 0xD000#16)
  | .skpVx _ => (0xF0FF#16, 0xE09E#16)
  | .sknpVx _ => (0xF0FF#16, 0xE0A1#16)
  | .ldVxDt _ => (0xF0FF#16, 0xF007#16)
  | .ldVxK _ => (0xF0FF#16, 0xF00A#16)
  | .ldDtVx _ => (0xF0FF#16, 0xF015#16)
  | .ldStVx _ => (0xF0FF#16, 0xF018#16)
  | .addIVx _ => (0xF0FF#16, 0xF01E#16)
  | .ldFVx _ => (0xF0FF#16, 0xF029#16)
  | .ldBVx _ => (0xF0FF#16, 0xF033#16)
  | .ldMemVx _ => (0xF0FF#16, 0xF055#16)
  | .ldVxMem _ => (0xF0FF#16, 0xF065#16)

/-- The opcode map of R65 as (mask, match) pairs, rows 1 to 34. -/
def opcodeMap : List (Word × Word) :=
  [(0xF0FF, 0x00E0), (0xF0FF, 0x00EE), (0xF000, 0x1000), (0xF000, 0x2000), (0xF000, 0x3000), (0xF000, 0x4000),
   (0xF00F, 0x5000), (0xF000, 0x6000), (0xF000, 0x7000)] ++
  [(0xF00F, 0x8000), (0xF00F, 0x8001), (0xF00F, 0x8002), (0xF00F, 0x8003), (0xF00F, 0x8004), (0xF00F, 0x8005),
   (0xF00F, 0x8006), (0xF00F, 0x8007), (0xF00F, 0x800E), (0xF00F, 0x9000)] ++
  [(0xF000, 0xA000), (0xF000, 0xB000), (0xF000, 0xC000), (0xF000, 0xD000), (0xF0FF, 0xE09E), (0xF0FF, 0xE0A1)] ++
  [(0xF0FF, 0xF007), (0xF0FF, 0xF00A), (0xF0FF, 0xF015), (0xF0FF, 0xF018), (0xF0FF, 0xF01E), (0xF0FF, 0xF029),
   (0xF0FF, 0xF033), (0xF0FF, 0xF055), (0xF0FF, 0xF065)]

/-- The bytes of a table word as the hardware stores them. The table numbers an instruction's only word from its least
significant bit, so the high byte is bits 15:8; bits from `nbits` up are 0. -/
def tableBytes (nbits w : Nat) : List Byte := bytesOfWord (BitVec.ofNat 16 (w % 2 ^ nbits))

/-- The instruction the decoder reads from a table word; `none` where it refuses. -/
def decodeTableWord (nbits w : Nat) : Option Instr :=
  match decodeBytes (tableBytes nbits w) with
  | .instr i _ => some i
  | .reserved _ _ => none
  | .truncated _ => none

end Sys2Proof
end

