-- ==== Sys2Proof/Config.lean ====
section
/-! DEFINITION. What R2 fixes for every implementation, and the one free value, the random byte. The OPEN parameters of
R2 (font, stack depth, reset keys) stand in Machine/Params.lean. -/

namespace Sys2Proof

/-- `MEM_SIZE`: addresses 0x000 to 0xFFF (R2, R10). -/
abbrev Config.memSize : Nat := 4096

/-- `PROG_BASE`: where LOAD puts an image and where pc starts (R2, R14). -/
abbrev Config.progBase : Nat := 0x200

/-- `FONT_BASE` (R2, R41). -/
abbrev Config.fontBase : Nat := 0x050

/-- `FONT_SIZE`: 16 glyphs of 5 bytes (R2, R41). -/
abbrev Config.fontSize : Nat := 80

/-- `DISP_W`, columns (R2, R16). -/
abbrev Config.dispW : Nat := 128

/-- `DISP_H`, rows (R2, R16). -/
abbrev Config.dispH : Nat := 64

/-- The last address at which an instruction may be fetched (R44, conflict C1). -/
abbrev Config.lastFetch : Nat := 4094

/-- The free random byte of a STEP whose host gave none, by the number of draws before it. It has no body: a claim that
mentions it holds whatever bytes the environment supplies (R24, R119, D18; log 5). -/
opaque Config.freeRandom : Nat → Byte

end Sys2Proof
end

