-- ==== Sys2Proof/Machine/Params.lean ====
section
/-! DEFINITION. The OPEN parameters of R2 at the defaults the spec gives them (92_eei_decisions.md D7, D16, D17). They stand
here, not in Config.lean, so that a better value can be put in without changing any other file. -/

namespace Sys2Proof.Machine

/-- `FONT[0..79]`: PRESUMED, the customary digit font of the family (93_implementation_defined.md G1, D16; log 1). Unsafe for
a claim about a glyph's pixels. -/
def fontTable : List Byte :=
  [0xF0, 0x90, 0x90, 0x90, 0xF0] ++ [0x20, 0x60, 0x20, 0x20, 0x70] ++
  [0xF0, 0x10, 0xF0, 0x80, 0xF0] ++ [0xF0, 0x10, 0xF0, 0x10, 0xF0] ++
  [0x90, 0x90, 0xF0, 0x10, 0x10] ++ [0xF0, 0x80, 0xF0, 0x10, 0xF0] ++
  [0xF0, 0x80, 0xF0, 0x90, 0xF0] ++ [0xF0, 0x10, 0x20, 0x40, 0x40] ++
  [0xF0, 0x90, 0xF0, 0x90, 0xF0] ++ [0xF0, 0x90, 0xF0, 0x10, 0xF0] ++
  [0xF0, 0x90, 0xF0, 0x90, 0x90] ++ [0xE0, 0x90, 0xE0, 0x90, 0xE0] ++
  [0xF0, 0x80, 0x80, 0x80, 0xF0] ++ [0xE0, 0x90, 0x90, 0x90, 0xE0] ++
  [0xF0, 0x80, 0xF0, 0x80, 0xF0] ++ [0xF0, 0x80, 0xF0, 0x80, 0x80]

/-- The default of `STACK_DEPTH`: PRESUMED 16, the family's customary depth (R2, R15, D7, G2; log 2). It is where the field
`stackDepth` of State starts; no rule reads it. Unsafe for a claim about a run from reset that nests calls deeper. -/
def stackDepthDefault : Option Nat := some 16

/-- `KEY_CUR_RESET`: DESIGN CHOICE 0x0, the spec's default (R20, D17; log 3). Unsafe. -/
def keyCurReset : Key := 0x0#4

/-- `KEY_PREV_RESET`: DESIGN CHOICE 0x0, the spec's default (R20, D17; log 3). Unsafe. -/
def keyPrevReset : Key := 0x0#4

end Sys2Proof.Machine
end

