-- ==== Sys2Proof/Machine/State.lean ====
section
/-! DEFINITION. The machine's state (spec 10_state.md R10 to R21, complete by R25), the four fatal faults, and the state
after RESET (70_reset_and_hazards.md R200). -/

namespace Sys2Proof.Machine

/-- The fatal faults of R161 with the information each records. An instruction or a fetch that raises one TAKES it: the
answer is a next state whose `fault` field holds it (R168). As an outcome a fault is raised only by `step` on a machine that
has halted, which answers the recorded one. All four are safe: the machine stops where the source gives no behaviour. -/
inductive Fault where
  /-- Code 1, raised by a fetch at `pc > 4094` (R162). Safe. -/
  | fetchOutOfRange (pc : Word)
  /-- Code 2, raised by RET on an empty call stack (R163). Safe. -/
  | stackUnderflow
  /-- Code 3, raised by CALL on a full call stack (R164, the spec's decision D6). Safe. -/
  | stackOverflow
  /-- Code 4, raised by DRW, LD B, LD [I] and LD Vx,[I] with an address above 4095 (R165, the spec's decision D4); it records
  the first such address, `max(I, 4096)`. Safe. -/
  | memoryOutOfRange (addr : Word)
  deriving DecidableEq, Repr

/-- Why a request has no move. -/
inductive Refusal where
  /-- An instruction whose meaning is not written; no arm of `exec` answers it. Safe. -/
  | notModelled (mnemonic : String)
  /-- Raised by the host command LOAD after the first STEP or on a halted machine, which the spec gives no move (R203, D22).
  Safe. -/
  | loadOutsideWindow
  deriving DecidableEq, Repr

/-- Memory as (address, byte) pairs: addresses strictly rising, no pair equal to what an unlisted address reads as (Ops.lean:
`Memory.unlisted`, `Memory.wf`; log 9). -/
abbrev Memory := List Host.Cell

/-- The pixel grid by rows: bit `px` of row `py` is the pixel at column `px`, row `py` (R16; log 10). -/
abbrev Display := Vector (BitVec Config.dispW) Config.dispH

structure State where
  /-- `V[0x0]` to `V[0xF]` (R11). -/
  v : Vector Byte 16
  /-- The index register `I` (R13). -/
  i : Word
  /-- The program counter (R14). -/
  pc : Word
  /-- The call stack, last pushed first; `sp` is its length (R15; log 11). -/
  stack : List Word
  /-- The 4096 bytes of memory (R10). -/
  mem : Memory
  /-- The display grid (R16). -/
  disp : Display
  /-- The dirty flag `needs_redraw` (R17). -/
  needsRedraw : Bool
  /-- The delay timer `DT` (R18). -/
  dt : Byte
  /-- The sound timer `ST` (R19). -/
  st : Byte
  /-- The current key `key_cur` (R20). -/
  keyCur : Key
  /-- The previous key `key_prev` (R20). -/
  keyPrev : Key
  /-- The flag `key_transition` (R20). -/
  keyTransition : Bool
  /-- The sticky fault status; `none` is NONE (R21). -/
  fault : Option Fault
  /-- The MODEL'S OWN: the argument `rnd` of this STEP where its host gave one (R3; log 5). -/
  rndArg : Option Byte
  /-- The MODEL'S OWN: how many free random bytes were drawn so far (log 5). -/
  draws : Nat
  /-- The OPEN parameter `STACK_DEPTH` of R2, which the model takes as an argument: the depth of the call stack, `none` for
  unbounded (R15, D7; log 2). No instruction and no command changes it. -/
  stackDepth : Option Nat
  deriving DecidableEq, Repr

/-- The state after RESET (R200). pc, the font and the zeros below 0x200 are the source's; the other zeros are the spec's
decision D15 (log 4), the keys are OPEN parameters (log 3), `rndArg` and `draws` are the model's own (log 5), and
`stackDepth` is the parameter at its default (log 2). -/
def State.reset : State where
  v := Vector.replicate 16 0#8
  i := 0#16
  pc := BitVec.ofNat 16 Config.progBase
  stack := []
  mem := []
  disp := Vector.replicate Config.dispH 0#Config.dispW
  needsRedraw := false
  dt := 0#8
  st := 0#8
  keyCur := keyCurReset
  keyPrev := keyPrevReset
  keyTransition := false
  fault := none
  rndArg := none
  draws := 0
  stackDepth := stackDepthDefault

end Sys2Proof.Machine
end

