-- ==== Sys2Proof/Machine/Ops.lean ====
section
/-! DEFINITION. The named operations over the state: memory, registers, program counter, call stack, display, random byte,
taking a fault, and the fetch (spec 10_state.md, 20_memory.md, 60_exceptions.md R168). -/

namespace Sys2Proof.Machine

/-- What a step, a meaning or a host command answers. -/
abbrev Result := Host.Outcome State Fault Refusal

/-! ## Memory -/

/-- What a byte nothing has written reads as, its reset value: the font at 0x050 to 0x09F, zero elsewhere (R10, R41, D15). -/
def Memory.unlisted (a : Nat) : Byte :=
  if Config.fontBase ≤ a ∧ a < Config.fontBase + Config.fontSize then fontTable.getD (a - Config.fontBase) 0#8 else 0#8

/-- The byte at address `a` (R40). Who reads has checked the address (`State.checkRange`, `fetch`). -/
def Memory.read : Memory → Nat → Byte
  | [], a => Memory.unlisted a
  | (k, b) :: m, a => if k = a then b else Memory.read m a

/-- Puts a pair in its place, in place of one at the same address. -/
def Memory.insert : Memory → Nat → Byte → Memory
  | [], a, b => [(a, b)]
  | (k, c) :: m, a, b =>
    if a < k then (a, b) :: (k, c) :: m
    else if a = k then (a, b) :: m
    else (k, c) :: Memory.insert m a b

/-- Removes what is listed at an address. -/
def Memory.erase (m : Memory) (a : Nat) : Memory := m.filter (fun c => c.1 ≠ a)

/-- `mem[a] <- b`, in canonical form (R42). Every byte is writable, the font too (R53, D13). -/
def Memory.write (m : Memory) (a : Nat) (b : Byte) : Memory :=
  if b = Memory.unlisted a then Memory.erase m a else Memory.insert m a b

/-- The canonical form: addresses strictly rising and below `MEM_SIZE`, no pair that an unlisted address would read as. -/
abbrev Memory.wf (m : Memory) : Prop :=
  m.Pairwise (fun c d => c.1 < d.1) ∧ ∀ c ∈ m, c.1 < Config.memSize ∧ c.2 ≠ Memory.unlisted c.1

/-- The byte of `mem` at `a`. -/
def State.readByte (s : State) (a : Nat) : Byte := s.mem.read a

/-- `mem[a] <- b`. -/
def State.writeByte (s : State) (a : Nat) (b : Byte) : State := { s with mem := s.mem.write a b }

/-- Writes consecutive bytes from `a` upward. -/
def State.writeBytes (s : State) (a : Nat) : List Byte → State
  | [] => s
  | b :: bs => State.writeBytes (s.writeByte a b) (a + 1) bs

/-! ## Registers -/

/-- `V[r]` (R11). -/
def State.reg (s : State) (r : Reg) : Byte := s.v[r.toFin]

/-- `V[r] <- b` (R11). -/
def State.setReg (s : State) (r : Reg) (b : Byte) : State := { s with v := s.v.set r.toFin b }

/-- `I <- a` (R13). -/
def State.setI (s : State) (a : Word) : State := { s with i := a }

/-- `pc <- a` (R14). -/
def State.setPc (s : State) (a : Word) : State := { s with pc := a }

/-- `DT <- b` (R18). -/
def State.setDt (s : State) (b : Byte) : State := { s with dt := b }

/-- `ST <- b` (R19). -/
def State.setSt (s : State) (b : Byte) : State := { s with st := b }

/-- A skip: `pc <- pc + 2` when the condition holds (R14, R90). -/
def State.skipIf (s : State) (condition : Bool) : State := if condition then s.setPc (s.pc + 2#16) else s

/-- Whether a value is the latched key, all 8 bits compared (R177, D23). -/
def State.keyIs (s : State) (b : Byte) : Bool := b == s.keyCur.zeroExtend 8

/-! ## Faults -/

/-- Fault entry: the status is recorded and nothing else happens (R168). pc is what it was when the fault was raised: `a + 2`
in Execute, unchanged in a fetch. -/
def State.raise (s : State) (f : Fault) : State := { s with fault := some f }

/-- Ends a meaning that may raise a fault: the state it computed, or the fault taken from the state it began in. -/
def State.complete (s : State) : Except Fault State → Result
  | .ok t => .next t
  | .error f => .next (s.raise f)

/-- The numeric cause codes of R161 (D5). -/
def faultCode : Option Fault → Nat
  | none => 0
  | some (.fetchOutOfRange _) => 1
  | some .stackUnderflow => 2
  | some .stackOverflow => 3
  | some (.memoryOutOfRange _) => 4

/-- The first address above 4095 of an access that starts at `I`: `max(I, 4096)` (R165). -/
def State.firstOutOfRange (s : State) : Word := BitVec.ofNat 16 (max s.i.toNat Config.memSize)

/-- Continues with `t` when the `count` bytes from `I` all lie in memory; the address is not reduced (R42, R43, D4). -/
def State.checkRange (s : State) (count : Nat) (t : State) : Except Fault State :=
  if s.i.toNat + count ≤ Config.memSize ∨ count = 0 then .ok t else .error (.memoryOutOfRange s.firstOutOfRange)

/-! ## Call stack -/

/-- `sp == STACK_DEPTH`; never so when the depth is unbounded (R15, R164). -/
abbrev State.StackFull (s : State) : Prop := s.stackDepth = some s.stack.length

/-- `Push(a)` (R15). -/
def State.push (s : State) (a : Word) : Except Fault State :=
  if s.StackFull then .error .stackOverflow else .ok { s with stack := a :: s.stack }

/-- `pc <- Pop()` (R15, R81). -/
def State.popPc (s : State) : Except Fault State :=
  match s.stack with
  | [] => .error .stackUnderflow
  | a :: rest => .ok { s with stack := rest, pc := a }

/-! ## Display -/

/-- The pixel at column `px`, row `py`; off outside the grid (R16). -/
def Display.get (d : Display) (px py : Nat) : Bool := (d[py]?.getD 0#Config.dispW).getLsbD px

/-- The grid with one pixel XORed with 1 (R127). -/
def Display.flip (d : Display) (px py : Nat) : Display :=
  if h : py < Config.dispH then d.set py (d[py] ^^^ (1#Config.dispW <<< px)) else d

/-- All pixels off (R80, R180). -/
def Display.clear : Display := Vector.replicate Config.dispH 0#Config.dispW

/-- `disp[px][py]`. -/
def State.pixel (s : State) (px py : Nat) : Bool := Display.get s.disp px py

/-- `BlitPixel(px, py)`: the pixel is flipped and the display marked dirty; the answer is the old pixel, the collision (R127). -/
def State.blitPixel (s : State) (px py : Nat) : Bool × State :=
  (s.pixel px py, { s with disp := Display.flip s.disp px py, needsRedraw := true })

/-- The display unit's clear: all pixels off, marked dirty (R80). -/
def State.clearDisplay (s : State) : State := { s with disp := Display.clear, needsRedraw := true }

/-! ## The random byte -/

/-- The random byte of this STEP: its argument where the host gave one, else a free value (R3, R24, D18; log 5). -/
def State.randomByte (s : State) : Byte :=
  match s.rndArg with
  | some b => b
  | none => Config.freeRandom s.draws

/-- The random byte is used up: the argument is gone, or the next draw is another one (log 5). -/
def State.consumeRandom (s : State) : State :=
  match s.rndArg with
  | some _ => { s with rndArg := none }
  | none => { s with draws := s.draws + 1 }

/-! ## Fetch -/

/-- What a fetch gives: a word with pc past it, or the state with the fault taken. -/
inductive Fetched where
  | word (w : Word) (s : State)
  | raised (s : State)
  deriving DecidableEq, Repr

/-- The word at pc, high byte first (R44, R45). -/
def State.wordAtPc (s : State) : Word := wordOfBytes (s.readByte s.pc.toNat) (s.readByte (s.pc.toNat + 1))

/-- `Fetch()` (R44): `FetchOutOfRange` with pc unchanged when `pc > 4094`, else the word at pc and pc advanced by 2. -/
def State.fetch (s : State) : Fetched :=
  if Config.lastFetch < s.pc.toNat then .raised (s.raise (.fetchOutOfRange s.pc))
  else .word s.wordAtPc (s.setPc (s.pc + 2#16))

/-- A reserved word is a no-op: pc stays past it (R67). -/
def execReserved (_word : Word) (s : State) : Result := .next s

end Sys2Proof.Machine
end

