-- ==== Sys2Proof/Machine/Operands.lean ====
section
/-! DEFINITION. The operand forms (spec 30_encoding.md R63, 20_memory.md R43, R46): register contents, unsigned immediates
used zero-extended, addresses `I + i`, glyph addresses, decimal digits, and the bits of a sprite byte. -/

namespace Sys2Proof.Machine

/-- `nnn` as a 16-bit value (R63). -/
def addrOperand (nnn : Addr) : Word := nnn.zeroExtend 16

/-- A register's content as a 16-bit value (R118, R145). -/
def wordOfByte (b : Byte) : Word := b.zeroExtend 16

/-- A key code as a register value (R136, R142). -/
def byteOfKey (k : Key) : Byte := k.zeroExtend 8

/-- The effective address `I + i`, never reduced (R43, R46). -/
def State.effAddr (s : State) (i : Nat) : Nat := s.i.toNat + i

/-- The registers `V[0]` to `V[x]`, in order (R148). -/
def State.regsUpTo (s : State) (x : Reg) : List Byte := (List.range (x.toNat + 1)).map (fun i => s.reg (BitVec.ofNat 4 i))

/-- Loads registers in order from `V[i]` upward (R149). -/
def State.setRegsFrom (s : State) (i : Nat) : List Byte → State
  | [] => s
  | b :: bs => State.setRegsFrom (s.setReg (BitVec.ofNat 4 i) b) (i + 1) bs

/-- The `count` bytes at `I` upward (R46). -/
def State.bytesAtI (s : State) (count : Nat) : List Byte := (List.range count).map (fun i => s.readByte (s.effAddr i))

/-- The glyph address of a value, all 8 bits used (R146, D12). -/
def glyphAddr (b : Byte) : Word := BitVec.ofNat 16 (Config.fontBase + 5 * b.toNat)

/-- Hundreds, tens and ones of a byte (R147). -/
def decimalDigits (b : Byte) : List Byte :=
  [BitVec.ofNat 8 (b.toNat / 100), BitVec.ofNat 8 (b.toNat / 10 % 10), BitVec.ofNat 8 (b.toNat % 10)]

/-- The bit of a sprite byte in column `c`, most significant first (R126, R128). -/
def spriteBit (b : Byte) (c : Nat) : Bool := b.getLsbD (7 - c)

/-- The anchor column `vx mod 128` (R126). -/
def anchorCol (b : Byte) : Nat := b.toNat % Config.dispW

/-- The anchor row `vy mod 64` (R126). -/
def anchorRow (b : Byte) : Nat := b.toNat % Config.dispH

end Sys2Proof.Machine
end

