-- ==== Sys2Proof/Machine/Flags.lean ====
section
/-! DEFINITION. The flag values of `V[0xF]` (spec 10_state.md R12) and the order of an instruction's writes
(42_family_8_alu.md R100, the spec's decision D9). -/

namespace Sys2Proof.Machine

/-- A flag as a register value, exactly 0x00 or 0x01 (R12). -/
def flagByte (flag : Bool) : Byte := if flag then 1#8 else 0#8

/-- Carry out: the unbounded sum exceeds 255 (R105). -/
def carryFlag (a b : Byte) : Bool := decide (255 < a.toNat + b.toNat)

/-- The no-borrow flag: strictly greater, so equality gives 0 (R106, R108). -/
def greaterFlag (a b : Byte) : Bool := decide (b.toNat < a.toNat)

/-- The bit a right shift by one drops (R107). -/
def lowBitFlag (a : Byte) : Bool := a.getLsbD 0

/-- The bit a left shift by one drops (R109). -/
def highBitFlag (a : Byte) : Bool := a.getLsbD 7

/-- Writes the flag output. -/
def State.setFlag (s : State) (flag : Bool) : State := s.setReg VF (flagByte flag)

/-- The write order of R100: the result to `V[x]`, then the flag, so that with `x = 0xF` the flag remains (D9; log 15). -/
def State.setRegFlag (s : State) (x : Reg) (result : Byte) (flag : Bool) : State := (s.setReg x result).setFlag flag

/-- The 8-bit sum modulo 256 (R94, R105). -/
def addBytes (a b : Byte) : Byte := BitVec.ofNat 8 ((a.toNat + b.toNat) % 256)

/-- The 8-bit difference modulo 256 (R106, R108). -/
def subBytes (a b : Byte) : Byte := BitVec.ofInt 8 (((a.toNat : Int) - (b.toNat : Int)) % 256)

/-- Logical shift right by one: `floor(a / 2)` (R107). -/
def shiftRightOne (a : Byte) : Byte := BitVec.ofNat 8 (a.toNat / 2)

/-- Logical shift left by one, modulo 256 (R109). -/
def shiftLeftOne (a : Byte) : Byte := BitVec.ofNat 8 (a.toNat * 2 % 256)

end Sys2Proof.Machine
end

