-- ==== Sys2Proof/Machine/Alu.lean ====
section
/-! DEFINITION. Family 0x8: register-to-register ALU (spec 42_family_8_alu.md). Operands are read first, the result is
written next, a flag last (R100, D9). -/

namespace Sys2Proof.Machine

/-- R101. -/
def execLdVxVy (x y : Reg) (s : State) : Result := .next (s.setReg x (s.reg y))

/-- R102: no flag. -/
def execOrVxVy (x y : Reg) (s : State) : Result := .next (s.setReg x (s.reg x ||| s.reg y))

/-- R103: no flag. -/
def execAndVxVy (x y : Reg) (s : State) : Result := .next (s.setReg x (s.reg x &&& s.reg y))

/-- R104: no flag. -/
def execXorVxVy (x y : Reg) (s : State) : Result := .next (s.setReg x (s.reg x ^^^ s.reg y))

/-- R105. -/
def execAddVxVy (x y : Reg) (s : State) : Result :=
  .next (s.setRegFlag x (addBytes (s.reg x) (s.reg y)) (carryFlag (s.reg x) (s.reg y)))

/-- R106. -/
def execSubVxVy (x y : Reg) (s : State) : Result :=
  .next (s.setRegFlag x (subBytes (s.reg x) (s.reg y)) (greaterFlag (s.reg x) (s.reg y)))

/-- R107: `V[x]` in place; `y` plays no part (D10). -/
def execShrVx (x _y : Reg) (s : State) : Result :=
  .next (s.setRegFlag x (shiftRightOne (s.reg x)) (lowBitFlag (s.reg x)))

/-- R108: the roles of R106 exchanged; the destination is still `V[x]`. -/
def execSubnVxVy (x y : Reg) (s : State) : Result :=
  .next (s.setRegFlag x (subBytes (s.reg y) (s.reg x)) (greaterFlag (s.reg y) (s.reg x)))

/-- R109: `V[x]` in place; `y` plays no part (D10). -/
def execShlVx (x _y : Reg) (s : State) : Result :=
  .next (s.setRegFlag x (shiftLeftOne (s.reg x)) (highBitFlag (s.reg x)))

end Sys2Proof.Machine
end

