-- ==== Sys2Proof/Machine/Draw.lean ====
section
/-! DEFINITION. Family 0xD: draw sprite (spec 44_family_D_draw.md R126 to R128). -/

namespace Sys2Proof.Machine

/-- One column of one sprite row: a 0 bit does nothing, a 1 bit flips its pixel and a collision sets `V[0xF]` (R126, R127). -/
def drawColumn (b : Byte) (x0 py : Nat) (s : State) (c : Nat) : State :=
  if spriteBit b c then
    let blit := s.blitPixel ((x0 + c) % Config.dispW) py
    if blit.1 then blit.2.setFlag true else blit.2
  else s

/-- The eight columns of one sprite row, most significant bit first. -/
def drawRow (b : Byte) (x0 py : Nat) (s : State) : State := (List.range 8).foldl (drawColumn b x0 py) s

/-- The sprite's rows from row number `r` on: a row at 64 or beyond is dropped (R126). -/
def drawRows (x0 y0 : Nat) (s : State) (r : Nat) : List Byte → State
  | [] => s
  | b :: bs =>
    drawRows x0 y0 (if Config.dispH ≤ y0 + r then s else drawRow b x0 (y0 + r) s) (r + 1) bs

/-- R126: all `n` bytes are range-checked first (D14); `V[0xF]` is zeroed after the operands are read. -/
def execDrwVxVyN (x y : Reg) (n : Nibble) (s : State) : Result :=
  s.complete (s.checkRange n.toNat
    (drawRows (anchorCol (s.reg x)) (anchorRow (s.reg y)) (s.setFlag false) 0 (s.bytesAtI n.toNat)))

end Sys2Proof.Machine
end

