-- ==== Sys2Proof/Machine/Flow.lean ====
section
/-! DEFINITION. Families 0x0, 0x1, 0x2: clear display, return, jump, call (spec 40_family_0_to_2.md). pc is already past the
instruction when a meaning starts (R14). -/

namespace Sys2Proof.Machine

/-- R80; the ignored bits have no effect (R66, D20). -/
def execCls (_ignored : Nibble) (s : State) : Result := .next s.clearDisplay

/-- R81; on an empty stack it takes `StackUnderflow` (R163). -/
def execRet (_ignored : Nibble) (s : State) : Result := s.complete s.popPc

/-- R82. -/
def execJpNnn (nnn : Addr) (s : State) : Result := .next (s.setPc (addrOperand nnn))

/-- R83: pushes the advanced pc; on a full stack it takes `StackOverflow` (R164, D6). -/
def execCallNnn (nnn : Addr) (s : State) : Result :=
  s.complete ((s.push s.pc).map (fun t => t.setPc (addrOperand nnn)))

end Sys2Proof.Machine
end

