-- ==== Sys2Proof/Machine/Immediate.lean ====
section
/-! DEFINITION. Families 0x3 to 0x7: skips on equality, load immediate, add immediate (spec 41_family_3_to_7.md). -/

namespace Sys2Proof.Machine

/-- R90. -/
def execSeVxKk (x : Reg) (kk : Byte) (s : State) : Result := .next (s.skipIf (s.reg x == kk))

/-- R91. -/
def execSneVxKk (x : Reg) (kk : Byte) (s : State) : Result := .next (s.skipIf (s.reg x != kk))

/-- R92. -/
def execSeVxVy (x y : Reg) (s : State) : Result := .next (s.skipIf (s.reg x == s.reg y))

/-- R93. -/
def execLdVxKk (x : Reg) (kk : Byte) (s : State) : Result := .next (s.setReg x kk)

/-- R94: no flag. -/
def execAddVxKk (x : Reg) (kk : Byte) (s : State) : Result := .next (s.setReg x (addBytes (s.reg x) kk))

end Sys2Proof.Machine
end

