-- ==== Sys2Proof/Machine/IndexRandom.lean ====
section
/-! DEFINITION. Families 0x9 to 0xC: skip on inequality, load index, jump with offset, random (spec 43_family_9_to_C.md). -/

namespace Sys2Proof.Machine

/-- R116. -/
def execSneVxVy (x y : Reg) (s : State) : Result := .next (s.skipIf (s.reg x != s.reg y))

/-- R117. -/
def execLdINnn (nnn : Addr) (s : State) : Result := .next (s.setI (addrOperand nnn))

/-- R118: the sum is not reduced modulo 4096; a pc beyond 4094 faults at the next fetch (D8). -/
def execJpVxNnn (x : Reg) (nnn : Addr) (s : State) : Result :=
  .next (s.setPc (addrOperand nnn + wordOfByte (s.reg x)))

/-- R119: the random byte is this STEP's, a free value (D18; log 5). -/
def execRndVxKk (x : Reg) (kk : Byte) (s : State) : Result :=
  .next (s.consumeRandom.setReg x (s.randomByte &&& kk))

end Sys2Proof.Machine
end

