-- ==== Sys2Proof/Machine/Keys.lean ====
section
/-! DEFINITION. Family 0xE: skip on the latched key (spec 45_family_E_keys.md). -/

namespace Sys2Proof.Machine

/-- R136. -/
def execSkpVx (x : Reg) (s : State) : Result := .next (s.skipIf (s.keyIs (s.reg x)))

/-- R137. -/
def execSknpVx (x : Reg) (s : State) : Result := .next (s.skipIf (!s.keyIs (s.reg x)))

end Sys2Proof.Machine
end

