-- ==== Sys2Proof/Machine/Misc.lean ====
section
/-! DEFINITION. Family 0xF: timers, key wait, index arithmetic, font, decimal store, block store and load (spec
46_family_F_misc.md). -/

namespace Sys2Proof.Machine

/-- R141. -/
def execLdVxDt (x : Reg) (s : State) : Result := .next (s.setReg x s.dt)

/-- R142: with a transition latched the key is stored; without, pc goes back and the instruction repeats. The flag is tested,
never cleared. -/
def execLdVxK (x : Reg) (s : State) : Result :=
  .next (if s.keyTransition then s.setReg x (byteOfKey s.keyCur) else s.setPc (s.pc - 2#16))

/-- R143. -/
def execLdDtVx (x : Reg) (s : State) : Result := .next (s.setDt (s.reg x))

/-- R144. -/
def execLdStVx (x : Reg) (s : State) : Result := .next (s.setSt (s.reg x))

/-- R145: modulo 65536, no flag (D11). -/
def execAddIVx (x : Reg) (s : State) : Result := .next (s.setI (s.i + wordOfByte (s.reg x)))

/-- R146. -/
def execLdFVx (x : Reg) (s : State) : Result := .next (s.setI (glyphAddr (s.reg x)))

/-- R147: three bytes, checked before the first is written (D4). -/
def execLdBVx (x : Reg) (s : State) : Result :=
  s.complete (s.checkRange 3 (s.writeBytes (s.effAddr 0) (decimalDigits (s.reg x))))

/-- R148: `x + 1` bytes, checked before the first is written (D4); `I` stays. -/
def execLdMemVx (x : Reg) (s : State) : Result :=
  s.complete (s.checkRange (x.toNat + 1) (s.writeBytes (s.effAddr 0) (s.regsUpTo x)))

/-- R149: `x + 1` bytes, checked before the first register is written (D4); `I` stays. -/
def execLdVxMem (x : Reg) (s : State) : Result :=
  s.complete (s.checkRange (x.toNat + 1) (s.setRegsFrom 0 (s.bytesAtI (x.toNat + 1))))

end Sys2Proof.Machine
end

