-- ==== Sys2Proof/Machine/Step.lean ====
section
/-! DEFINITION. One STEP (spec 00_scope.md R4): a halted machine answers its fault; otherwise fetch, decode, execute. -/

namespace Sys2Proof.Machine

/-- Decode and execute a fetched word: the instruction's meaning, or the no-op of a reserved word (R64, R67). -/
def execWord (w : Word) (s : State) : Host.Outcome State Fault Refusal :=
  match decodeWord w with
  | some i => exec i s
  | none => execReserved w s

/-- `STEP` (R4). Its argument `rnd` is `rndArg` where the host gave one, else a free byte (log 5). A fault taken by this step
is a next state whose `fault` holds it; a machine that had already halted answers that fault (R168; log 6). -/
def step (s : State) : Host.Outcome State Fault Refusal :=
  match s.fault with
  | some f => .fault f
  | none =>
    match s.fetch with
    | .raised t => .next t
    | .word w t => execWord w t

/-- The state with a table word stored where `step` fetches next. A fetch needs a running machine and a pc at or below 4094;
where these fail they are put right, and nothing else changes (log 8). -/
def State.withFetchWord (s : State) (nbits w : Nat) : State :=
  let pc := if s.pc.toNat ≤ Config.lastFetch then s.pc else BitVec.ofNat 16 Config.progBase
  { s.writeBytes pc.toNat (tableBytes nbits w) with pc := pc, fault := none }

end Sys2Proof.Machine
end

