-- ==== Sys2Proof/Machine/Commands.lean ====
section
/-! DEFINITION. The host's commands (spec 00_scope.md R3, 60_exceptions.md R166, R167, R173 to R179, R184, R185,
70_reset_and_hazards.md R200 to R203). Each is one atomic transition; the host chooses the order (log 7). -/

namespace Sys2Proof.Machine

/-- The commands of R3 with their arguments. A key code above 0xF cannot be written (R175, U20). -/
inductive Command where
  | reset
  | load (bytes : List Byte)
  | step (rnd : Byte)
  | tick
  | keyPress (code : Key)
  | clearKeyTransition
  | readDisplay
  | needsRedraw
  | clearRedraw
  deriving DecidableEq, Repr

/-- The results of R3. -/
inductive Response where
  /-- A command without a result. -/
  | done
  /-- STEP or LOAD succeeded. -/
  | ok
  /-- STEP executed a reserved word (R167). -/
  | okUnrecognized (w : Word)
  /-- STEP raised a fault, or the machine had halted with it (R168). -/
  | fault (f : Fault)
  /-- LOAD rejected its image (R166). -/
  | loadError
  /-- READ_DISPLAY's grid (R178). -/
  | display (d : Display)
  /-- NEEDS_REDRAW's flag (R178). -/
  | redraw (flag : Bool)
  deriving DecidableEq, Repr

/-- The block with what the host protocol needs to know of its past: whether a STEP was issued since the last RESET (R203). -/
structure Block where
  core : State
  stepped : Bool
  deriving DecidableEq, Repr

/-- The block right after RESET. -/
def Block.reset : Block where
  core := State.reset
  stepped := false

/-- A countdown by one that floors at 0 (R173). -/
def countDown (b : Byte) : Byte := if b = 0#8 then 0#8 else b - 1#8

/-- `TICK` (R173). -/
def State.tick (s : State) : State := { s with dt := countDown s.dt, st := countDown s.st }

/-- `KEY_PRESS(code)` (R175): the transition flag is set when the key differs, and never cleared here. -/
def State.keyPress (s : State) (code : Key) : State :=
  { s with keyPrev := s.keyCur, keyCur := code, keyTransition := s.keyTransition || code != s.keyCur }

/-- `CLEAR_KEY_TRANSITION` (R176): the flag alone. -/
def State.clearKeyTransition (s : State) : State := { s with keyTransition := false }

/-- `CLEAR_REDRAW` (R179). -/
def State.clearRedraw (s : State) : State := { s with needsRedraw := false }

/-- `LOAD(bytes)` (R202): `none` is LoadError, with nothing written. -/
def State.load (s : State) (bytes : List Byte) : Option State :=
  if Config.progBase + bytes.length ≤ Config.memSize then some (s.writeBytes Config.progBase bytes) else none

/-- `RESET` (R200, R201). The count of free random bytes goes on, so that no two of them are the same draw (log 5), and the
depth of the stack, a parameter, stays (log 2). -/
def State.resetCommand (s : State) : State := { State.reset with draws := s.draws, stackDepth := s.stackDepth }

/-- The reserved word this STEP would execute, if it is one (R67, R167). -/
def State.unrecognizedWord (s : State) : Option Word :=
  if s.pc.toNat ≤ Config.lastFetch ∧ decodeWord s.wordAtPc = none then some s.wordAtPc else none

/-- The result of a STEP of a running machine that led from `s` to `t` (R4, R167, R168). -/
def stepResponse (s t : State) : Response :=
  match t.fault with
  | some f => .fault f
  | none =>
    match s.unrecognizedWord with
    | some w => .okUnrecognized w
    | none => .ok

/-- `STEP(rnd)` (R4): `step` with its argument, which is gone afterwards; on a halted machine nothing changes (R168). -/
def State.stepCommand (s : State) (rnd : Byte) : Host.Outcome (Response × State) Fault Refusal :=
  match step { s with rndArg := some rnd } with
  | .next t => .next (stepResponse s t, { t with rndArg := none })
  | .fault f => .next (.fault f, s)
  | .refused r => .refused r

/-- LOAD may be issued: no STEP since the last RESET, and not halted (R203). -/
def Block.mayLoad (b : Block) : Bool := !b.stepped && b.core.fault.isNone

/-- A command that changes the core alone and has no result. -/
def Block.onCore (b : Block) (t : State) : Host.Outcome (Response × Block) Fault Refusal :=
  .next (.done, { b with core := t })

/-- One command (R3). TICK, the key and the display commands do not look at the fault status (R184). -/
def Block.apply (b : Block) (c : Command) : Host.Outcome (Response × Block) Fault Refusal :=
  match c with
  | .reset => .next (.done, { core := b.core.resetCommand, stepped := false })
  | .load bytes =>
    if b.mayLoad then
      match b.core.load bytes with
      | some t => .next (.ok, { b with core := t })
      | none => .next (.loadError, b)
    else .refused .loadOutsideWindow
  | .step rnd =>
    match b.core.stepCommand rnd with
    | .next (r, t) => .next (r, { core := t, stepped := true })
    | .fault f => .fault f
    | .refused r => .refused r
  | .tick => b.onCore b.core.tick
  | .keyPress code => b.onCore (b.core.keyPress code)
  | .clearKeyTransition => b.onCore b.core.clearKeyTransition
  | .readDisplay => .next (.display b.core.disp, b)
  | .needsRedraw => .next (.redraw b.core.needsRedraw, b)
  | .clearRedraw => b.onCore b.core.clearRedraw

/-- A schedule of commands, in the host's order (R3, R209), with their results. -/
def Block.run (b : Block) : List Command → Host.Outcome (List Response × Block) Fault Refusal
  | [] => .next ([], b)
  | c :: cs =>
    match b.apply c with
    | .next (r, b') =>
      match Block.run b' cs with
      | .next (rs, b'') => .next (r :: rs, b'')
      | .fault f => .fault f
      | .refused r => .refused r
    | .fault f => .fault f
    | .refused r => .refused r

/-- The observation-only output of the delay timer (R185, D25). -/
def State.delayOutput (s : State) : Byte := s.dt

/-- The observation-only output of the sound timer (R185, D25). -/
def State.soundOutput (s : State) : Byte := s.st

end Sys2Proof.Machine
end

