-- ==== Sys2Proof/Safety.lean ====
section
/-! DEFINITION. The terms in which claims are stated: a running machine, the parts of the state and what a step leaves
unchanged, the invariant, the end loop, and the host's reference protocols. -/

namespace Sys2Proof

/-- How many bytes of data memory an instruction accesses, from `I` upward (R46). -/
def Instr.accessLength (i : Instr) : Nat :=
  match i with
  | .drwVxVyN _ _ n => n.toNat
  | .ldBVx _ => 3
  | .ldMemVx x => x.toNat + 1
  | .ldVxMem x => x.toNat + 1
  | .cls _ | .ret _ | .jpNnn _ | .callNnn _ | .seVxKk _ _ | .sneVxKk _ _ | .seVxVy _ _ | .ldVxKk _ _ | .addVxKk _ _
  | .ldVxVy _ _ | .orVxVy _ _ | .andVxVy _ _ | .xorVxVy _ _ | .addVxVy _ _ | .subVxVy _ _ | .shrVx _ _ | .subnVxVy _ _
  | .shlVx _ _ | .sneVxVy _ _ | .ldINnn _ | .jpVxNnn _ _ | .rndVxKk _ _ | .skpVx _ | .sknpVx _ | .ldVxDt _ | .ldVxK _
  | .ldDtVx _ | .ldStVx _ | .addIVx _ | .ldFVx _ => 0

/-- The registers an instruction can write: its destination, those a block load names, and the flag output of the six
instructions of R12 (R11's table). -/
def Instr.writesReg (i : Instr) (q : Reg) : Prop :=
  match i with
  | .ldVxKk x _ | .addVxKk x _ | .ldVxVy x _ | .orVxVy x _ | .andVxVy x _ | .xorVxVy x _ | .rndVxKk x _ | .ldVxDt x
  | .ldVxK x => q = x
  | .addVxVy x _ | .subVxVy x _ | .shrVx x _ | .subnVxVy x _ | .shlVx x _ => q = x ∨ q = VF
  | .drwVxVyN _ _ _ => q = VF
  | .ldVxMem x => q.toNat ≤ x.toNat
  | .cls _ | .ret _ | .jpNnn _ | .callNnn _ | .seVxKk _ _ | .sneVxKk _ _ | .seVxVy _ _ | .sneVxVy _ _ | .ldINnn _
  | .jpVxNnn _ _ | .skpVx _ | .sknpVx _ | .ldDtVx _ | .ldStVx _ | .addIVx _ | .ldFVx _ | .ldBVx _ | .ldMemVx _ => False

end Sys2Proof

namespace Sys2Proof.Machine

/-- The machine has not halted (R21, R168). A halted state is never a successful end. -/
abbrev State.Running (s : State) : Prop := s.fault = none

/-- The parts of the state, each of which a claim of non-interference can name: one register, one byte of memory, one pixel,
and every other field whole. -/
inductive Part where
  | reg (r : Reg)
  | index
  | pc
  | stack
  | byte (a : Nat)
  | pixel (px py : Nat)
  | dirty
  | delay
  | sound
  | keyCur
  | keyPrev
  | keyTransition
  | fault
  | rndArg
  | draws
  | stackDepth
  deriving DecidableEq, Repr

/-- A part holds in `t` what it holds in `s`. -/
def SameAt (s t : State) : Part → Prop
  | .reg r => t.reg r = s.reg r
  | .index => t.i = s.i
  | .pc => t.pc = s.pc
  | .stack => t.stack = s.stack
  | .byte a => t.readByte a = s.readByte a
  | .pixel px py => t.pixel px py = s.pixel px py
  | .dirty => t.needsRedraw = s.needsRedraw
  | .delay => t.dt = s.dt
  | .sound => t.st = s.st
  | .keyCur => t.keyCur = s.keyCur
  | .keyPrev => t.keyPrev = s.keyPrev
  | .keyTransition => t.keyTransition = s.keyTransition
  | .fault => t.fault = s.fault
  | .rndArg => t.rndArg = s.rndArg
  | .draws => t.draws = s.draws
  | .stackDepth => t.stackDepth = s.stackDepth

/-- The frame: every part but those allowed is the same. -/
def OnlyChanges (s t : State) (allowed : Part → Prop) : Prop := ∀ p, ¬ allowed p → SameAt s t p

/-- The answer is a next state, of which something holds. -/
def Completes (r : Host.Outcome State Fault Refusal) (P : State → Prop) : Prop := ∃ t, r = .next t ∧ P t

/-- `V[0xF]` as a flag output: exactly 0x01 when the condition holds, else exactly 0x00 (R12). -/
def FlagIs (t : State) (condition : Prop) : Prop := (condition → t.reg VF = 1#8) ∧ (¬ condition → t.reg VF = 0#8)

/-- What a STEP runs next: the machine runs, pc can be fetched at, and the two bytes there, in memory order, are decoded so
(R4, R44, R45). -/
def State.Fetches (s : State) (d : Decoded) : Prop :=
  s.Running ∧ s.pc.toNat ≤ 4094 ∧ decodeBytes [s.readByte s.pc.toNat, s.readByte (s.pc.toNat + 1)] = d

/-- A recorded fault is one the state itself explains: it is precise, so what caused it is still there (R168). -/
def State.FaultExplained (s : State) : Prop :=
  match s.fault with
  | none => True
  | some (.fetchOutOfRange a) => a = s.pc ∧ Config.lastFetch < a.toNat
  | some .stackUnderflow => s.stack = []
  | some .stackOverflow => s.StackFull
  | some (.memoryOutOfRange a) => a.toNat = max s.i.toNat Config.memSize

/-- What every step and every command keeps: memory in canonical form, the stack within its depth and holding only addresses
a fetch left behind (R15, R81), pc within what jumps, skips and returns can produce (R14), and an explained fault. -/
structure State.Inv (s : State) : Prop where
  mem : s.mem.wf
  depth : ∀ d, s.stackDepth = some d → s.stack.length ≤ d
  returns : ∀ a ∈ s.stack, a.toNat ≤ 4096
  pc : s.pc.toNat ≤ 0x10FE
  fault : s.FaultExplained

/-- The end loop: pc is the address of a jump to itself, and the machine runs (R210, the spec's convention D26). -/
def State.AtEndLoop (s : State) : Prop :=
  s.Running ∧ s.pc.toNat ≤ Config.lastFetch ∧ s.wordAtPc = 0x1000#16 + s.pc

/-- The column of a sprite anchored at column `x0` that lies on display column `px`: columns wrap (R126). -/
abbrev spriteColumn (x0 px : Nat) : Nat := (px + Config.dispW - x0) % Config.dispW

/-- Whether a sprite anchored at (`x0`, `y0`) has a 1 bit on the pixel at column `px`, row `py`: columns wrap, rows at 64 and
beyond are dropped (R126, R128). -/
def spriteCovers (sprite : List Byte) (x0 y0 px py : Nat) : Bool :=
  decide (y0 ≤ py ∧ py < y0 + sprite.length ∧ py < Config.dispH ∧ spriteColumn x0 px < 8) &&
    spriteBit (sprite.getD (py - y0) 0#8) (spriteColumn x0 px)

/-- One iteration of the reference schedule: key presses, a STEP, then CLEAR_KEY_TRANSITION (R205). -/
def referenceIteration (keys : List Key) (rnd : Byte) : List Command :=
  keys.map Command.keyPress ++ [.step rnd, .clearKeyTransition]

/-- A frame of the reference protocol of the dirty flag: no STEP between READ_DISPLAY and CLEAR_REDRAW (R211). -/
def redrawFrame : List Command := [.needsRedraw, .readDisplay, .clearRedraw]

end Sys2Proof.Machine
end

