-- ==== Sys2Proof/Certificates/Slice0/Obligations.lean ====
section
/-! DEFINITION. The statements for the provers, from the spec's numbered rules. In a statement about `exec` the state is the
one Execute starts in: pc is already past the instruction (R14), so "pc unchanged" is `a + 2` and `s.pc + 2` is `a + 4`.
Where a statement rests on a decision the spec marks as its own, or on a choice of the model's, its docstring says which. -/

open Sys2Proof Sys2Proof.Machine

/-! ## Encoding -/

/-- Decoding the word of any well-formed instruction gives it back, with every operand at every value. Field positions and
byte order are the spec's decision D3 (log 14); that the ignored bits are kept is the model's (log 13). -/
def Obligations.DecodeInvertsEncode : Prop :=
  ∀ i : Instr, i.wellFormed = true → decodeWord (encode i) = some i

/-- An instruction read from a word is well-formed and its word is that word: no bit is dropped or read twice (the
spec's decision D3; log 14). That the word of CLS, RET, SHR and SHL comes back whole rests on the model's choice to carry their
ignored bits (log 13). -/
def Obligations.EncodeInvertsDecode : Prop :=
  ∀ (w : Word) (i : Instr), decodeWord w = some i → i.wellFormed = true ∧ encode i = w

/-- The reserved words are exactly those of the table of R67, by family and sub-key (fields by D3, what counts by D19; log 12). -/
def Obligations.ReservedWordsAreThoseListed : Prop :=
  ∀ w : Word, decodeWord w = none ↔
    (fieldK w = 0x0#4 ∧ fieldKK w ∉ [0xE0#8, 0xEE#8]) ∨
    (fieldK w = 0x5#4 ∧ fieldN w ≠ 0x0#4) ∨
    (fieldK w = 0x8#4 ∧ fieldN w ∈ [0x8#4, 0x9#4, 0xA#4, 0xB#4, 0xC#4, 0xD#4, 0xF#4]) ∨
    (fieldK w = 0x9#4 ∧ fieldN w ≠ 0x0#4) ∨
    (fieldK w = 0xE#4 ∧ fieldKK w ∉ [0x9E#8, 0xA1#8]) ∨
    (fieldK w = 0xF#4 ∧
      fieldKK w ∉ [0x07#8, 0x0A#8, 0x15#8, 0x18#8, 0x1E#8, 0x29#8, 0x33#8, 0x55#8, 0x65#8])

/-- The decoder follows the opcode map of R65: what it reads matches its own row and no other, and a word that matches a row
is an instruction. -/
def Obligations.DecoderFollowsOpcodeMap : Prop :=
  ∀ w : Word,
    (∀ i, decodeWord w = some i → i.row ∈ opcodeMap ∧ w &&& i.row.1 = i.row.2 ∧
      ∀ row ∈ opcodeMap, w &&& row.1 = row.2 → row = i.row) ∧
    ((∃ row ∈ opcodeMap, w &&& row.1 = row.2) → ∃ i, decodeWord w = some i)

/-- Eight words written out from the patterns of R65 are read as what they stand for (the spec's decision D3, log 14; the bits
that CLS and JP Vx carry beside them are the model's choice, log 13). A ninth, 0x5121, matches no row and is read as reserved
(the spec's decision D19, log 12). -/
def Obligations.WordsFromTheOpcodeMapDecode : Prop :=
  decodeWord 0x00E0#16 = some (.cls 0x0#4) ∧ decodeWord 0x2300#16 = some (.callNnn 0x300#12) ∧
  decodeWord 0x3A42#16 = some (.seVxKk 0xA#4 0x42#8) ∧ decodeWord 0x8127#16 = some (.subnVxVy 0x1#4 0x2#4) ∧
  decodeWord 0xB345#16 = some (.jpVxNnn 0x3#4 0x345#12) ∧ decodeWord 0xD123#16 = some (.drwVxVyN 0x1#4 0x2#4 0x3#4) ∧
  decodeWord 0xE5A1#16 = some (.sknpVx 0x5#4) ∧ decodeWord 0xF265#16 = some (.ldVxMem 0x2#4) ∧
  decodeWord 0x5121#16 = none

/-! ## One STEP -/

/-- A STEP of a running machine whose bytes at pc are those of an instruction is that instruction's meaning, run with pc
advanced by 2; nothing else stands around it (byte order D3, one atomic step D2). -/
def Obligations.StepRunsDecodedInstruction : Prop :=
  ∀ (s : State) (i : Instr), s.Fetches (.instr i []) → step s = exec i (s.setPc (s.pc + 2#16))

/-- A reserved word is a no-op: only pc moves, by 2, and the result of STEP names the word (D19; log 12). -/
def Obligations.ReservedWordIsNoOp : Prop :=
  ∀ (s : State) (w : Word), s.Fetches (.reserved w []) →
    Completes (step s) (fun t => t.pc = s.pc + 2#16 ∧ OnlyChanges s t (fun p => p = .pc)) ∧
    ∀ rnd, ∃ t, s.stepCommand rnd = .next (.okUnrecognized w, t) ∧ t.pc = s.pc + 2#16 ∧ t.rndArg = none ∧
      OnlyChanges s t (fun p => p = .pc ∨ p = .rndArg)

/-- FetchOutOfRange is raised exactly when pc is above 4094; pc stays and is the recorded information, and nothing else
changes. That a fault is recorded in a next state is the model's form of R168 (log 6). -/
def Obligations.FetchFaultsExactlyAbove4094 : Prop :=
  (∀ s : State, s.Running → 4094 < s.pc.toNat →
    Completes (step s) (fun t => t.fault = some (.fetchOutOfRange s.pc) ∧ t.pc = s.pc ∧
      OnlyChanges s t (fun p => p = .fault))) ∧
  (∀ s t : State, s.Running → s.pc.toNat ≤ 4094 → step s = .next t → ∀ a, t.fault ≠ some (.fetchOutOfRange a))

/-- A halted machine does nothing: a STEP answers the recorded fault and leaves every part of the state (D5; log 6). -/
def Obligations.HaltedMachineOnlyReportsItsFault : Prop :=
  ∀ (s : State) (f : Fault), s.fault = some f →
    step s = .fault f ∧ (∀ rnd, s.stepCommand rnd = .next (.fault f, s)) ∧
    ∀ t, step s ≠ .next t

/-- Every instruction has a meaning on every state, and a STEP of a running machine always answers a next state: no word stops
the machine by its encoding. That a fault is taken as a next state is log 6. -/
def Obligations.RunningMachineAlwaysSteps : Prop :=
  (∀ (i : Instr) (s : State), ∃ t, exec i s = .next t) ∧ (∀ s : State, s.Running ↔ ∃ t, step s = .next t)

/-- Faults are precise: after a STEP that raised one, the state is the one before it but for the recorded fault and, where an
instruction raised it, pc advanced by 2 (the spec's decision D5; log 6). -/
def Obligations.FaultsArePrecise : Prop :=
  ∀ (s t : State) (f : Fault), step s = .next t → t.fault = some f →
    (t = s.raise f ∧ f = .fetchOutOfRange s.pc) ∨ (t = (s.setPc (s.pc + 2#16)).raise f ∧ s.pc.toNat ≤ 4094)

/-- Each fault an instruction raises comes from the instructions R161 names and from its condition, and each of them raises
it then (names, codes and conditions of overflow and range are the spec's decisions D4, D5, D6; logs 2, 6, 17). -/
def Obligations.EachFaultHasItsCause : Prop :=
  ∀ (i : Instr) (s t : State), s.Running → exec i s = .next t →
    (t.fault = some .stackUnderflow ↔ (∃ b, i = .ret b) ∧ s.stack = []) ∧
    (t.fault = some .stackOverflow ↔ (∃ nnn, i = .callNnn nnn) ∧ s.StackFull) ∧
    (∀ a, t.fault = some (.memoryOutOfRange a) ↔
      0 < i.accessLength ∧ 4096 < s.i.toNat + i.accessLength ∧ a.toNat = max s.i.toNat 4096) ∧
    (∀ a, t.fault ≠ some (.fetchOutOfRange a))

/-! ## Families 0x0, 0x1, 0x2 -/

/-- CLS turns every pixel off and marks the display dirty, whatever was on it, and changes nothing else; bits 11:8 play no
part (the spec's decision D20; log 14; that the instruction carries them is the model's, log 13). -/
def Obligations.ClsClearsAndMarksDirty : Prop :=
  ∀ (b : Nibble) (s : State), decodeWord (0x00E0#16 + (b.zeroExtend 16 <<< 8)) = some (.cls b) ∧
    Completes (exec (.cls b) s) (fun t =>
      (∀ px py, t.pixel px py = false) ∧ t.needsRedraw = true ∧
      OnlyChanges s t (fun p => (∃ px py, p = .pixel px py) ∨ p = .dirty))

/-- RET takes the last pushed address into pc; on an empty stack it takes StackUnderflow with everything else unchanged (bits
11:8 by D20, log 14, carried by the model's choice, log 13; the fault's form by D5, log 6). -/
def Obligations.RetPopsOrUnderflows : Prop :=
  (∀ b : Nibble, decodeWord (0x00EE#16 + (b.zeroExtend 16 <<< 8)) = some (.ret b)) ∧
  (∀ (b : Nibble) (s : State) (a : Word) (rest : List Word), s.stack = a :: rest →
    Completes (exec (.ret b) s) (fun t =>
      t.pc = a ∧ t.stack = rest ∧ OnlyChanges s t (fun p => p = .pc ∨ p = .stack))) ∧
  (∀ (b : Nibble) (s : State), s.stack = [] →
    Completes (exec (.ret b) s) (fun t =>
      t.fault = some .stackUnderflow ∧ OnlyChanges s t (fun p => p = .fault)))

/-- JP nnn puts the zero-extended address into pc and changes nothing else. -/
def Obligations.JpSetsPc : Prop :=
  ∀ (nnn : Addr) (s : State), decodeWord (0x1000#16 + nnn.zeroExtend 16) = some (.jpNnn nnn) ∧
    Completes (exec (.jpNnn nnn) s) (fun t => t.pc.toNat = nnn.toNat ∧ OnlyChanges s t (fun p => p = .pc))

/-- CALL nnn pushes the advanced pc and jumps; with STACK_DEPTH entries on the stack it takes StackOverflow with everything
else unchanged, and with an unbounded STACK_DEPTH it never does (the spec's decisions D6, D7; logs 2, 6). -/
def Obligations.CallPushesOrOverflows : Prop :=
  (∀ nnn : Addr, decodeWord (0x2000#16 + nnn.zeroExtend 16) = some (.callNnn nnn)) ∧
  (∀ (nnn : Addr) (s : State), ¬ s.StackFull →
    Completes (exec (.callNnn nnn) s) (fun t =>
      t.pc.toNat = nnn.toNat ∧ t.stack = s.pc :: s.stack ∧ OnlyChanges s t (fun p => p = .pc ∨ p = .stack))) ∧
  (∀ (nnn : Addr) (s : State), s.StackFull →
    Completes (exec (.callNnn nnn) s) (fun t =>
      t.fault = some .stackOverflow ∧ OnlyChanges s t (fun p => p = .fault)))

/-- A subroutine that a CALL entered and that leaves the stack as it found it returns to the instruction after the CALL, and
the caller's stack is back (the stack's depth is D7; log 2). -/
def Obligations.RetReturnsAfterItsCall : Prop :=
  ∀ (nnn : Addr) (b : Nibble) (s t u : State), ¬ s.StackFull → exec (.callNnn nnn) s = .next t →
    u.stack = t.stack → Completes (exec (.ret b) u) (fun v => v.pc = s.pc ∧ v.stack = s.stack)

/-! ## Families 0x3 to 0x7 and 0x9 -/

/-- SE and SNE with an immediate skip exactly two more bytes exactly when the register equals, or differs from, all 8 bits. -/
def Obligations.SkipsOnImmediate : Prop :=
  ∀ (x : Reg) (kk : Byte) (s : State),
    decodeWord (0x3000#16 + (x.zeroExtend 16 <<< 8) + kk.zeroExtend 16) = some (.seVxKk x kk) ∧
    Completes (exec (.seVxKk x kk) s) (fun t =>
      t.pc = (if s.reg x = kk then s.pc + 2#16 else s.pc) ∧ OnlyChanges s t (fun p => p = .pc)) ∧
    decodeWord (0x4000#16 + (x.zeroExtend 16 <<< 8) + kk.zeroExtend 16) = some (.sneVxKk x kk) ∧
    Completes (exec (.sneVxKk x kk) s) (fun t =>
      t.pc = (if s.reg x ≠ kk then s.pc + 2#16 else s.pc) ∧ OnlyChanges s t (fun p => p = .pc))

/-- SE and SNE with two registers skip exactly two more bytes exactly when they are equal, or differ; with a low nibble other
than 0 the word is reserved (which words count as reserved is the spec's decision D19; log 12). -/
def Obligations.SkipsOnRegisters : Prop :=
  ∀ (x y : Reg) (s : State),
    decodeWord (0x5000#16 + (x.zeroExtend 16 <<< 8) + (y.zeroExtend 16 <<< 4)) = some (.seVxVy x y) ∧
    Completes (exec (.seVxVy x y) s) (fun t =>
      t.pc = (if s.reg x = s.reg y then s.pc + 2#16 else s.pc) ∧ OnlyChanges s t (fun p => p = .pc)) ∧
    decodeWord (0x9000#16 + (x.zeroExtend 16 <<< 8) + (y.zeroExtend 16 <<< 4)) = some (.sneVxVy x y) ∧
    Completes (exec (.sneVxVy x y) s) (fun t =>
      t.pc = (if s.reg x ≠ s.reg y then s.pc + 2#16 else s.pc) ∧ OnlyChanges s t (fun p => p = .pc)) ∧
    ∀ n : Nibble, n ≠ 0x0#4 →
      decodeWord (0x5000#16 + (x.zeroExtend 16 <<< 8) + (y.zeroExtend 16 <<< 4) + n.zeroExtend 16) = none ∧
      decodeWord (0x9000#16 + (x.zeroExtend 16 <<< 8) + (y.zeroExtend 16 <<< 4) + n.zeroExtend 16) = none

/-- LD Vx,kk loads the immediate; ADD Vx,kk adds it modulo 256 and writes no flag (`V[0xF]` changes only as the destination);
one after the other they leave the sum modulo 256. -/
def Obligations.ImmediatesLoadAndAdd : Prop :=
  ∀ (x : Reg) (kk : Byte) (s : State),
    decodeWord (0x6000#16 + (x.zeroExtend 16 <<< 8) + kk.zeroExtend 16) = some (.ldVxKk x kk) ∧
    Completes (exec (.ldVxKk x kk) s) (fun t => t.reg x = kk ∧ OnlyChanges s t (fun p => p = .reg x)) ∧
    decodeWord (0x7000#16 + (x.zeroExtend 16 <<< 8) + kk.zeroExtend 16) = some (.addVxKk x kk) ∧
    Completes (exec (.addVxKk x kk) s) (fun t =>
      (t.reg x).toNat = ((s.reg x).toNat + kk.toNat) % 256 ∧ OnlyChanges s t (fun p => p = .reg x)) ∧
    ∀ b : Byte, Completes (exec (.ldVxKk x kk) s) (fun t =>
      Completes (exec (.addVxKk x b) t) (fun u => (u.reg x).toNat = (kk.toNat + b.toNat) % 256))

/-! ## Family 0x8 -/

/-- LD, OR, AND and XOR of two registers write `V[x]` from the old values and no flag. That `x` lies above `y` in the word is
the spec's decision D3 (log 14). -/
def Obligations.LogicWritesNoFlag : Prop :=
  ∀ (x y : Reg) (s : State),
    Completes (exec (.ldVxVy x y) s) (fun t => t.reg x = s.reg y ∧ OnlyChanges s t (fun p => p = .reg x)) ∧
    Completes (exec (.orVxVy x y) s) (fun t => t.reg x = s.reg x ||| s.reg y ∧ OnlyChanges s t (fun p => p = .reg x)) ∧
    Completes (exec (.andVxVy x y) s) (fun t => t.reg x = s.reg x &&& s.reg y ∧ OnlyChanges s t (fun p => p = .reg x)) ∧
    Completes (exec (.xorVxVy x y) s) (fun t => t.reg x = s.reg x ^^^ s.reg y ∧ OnlyChanges s t (fun p => p = .reg x)) ∧
    decodeWord (0x8000#16 + (x.zeroExtend 16 <<< 8) + (y.zeroExtend 16 <<< 4)) = some (.ldVxVy x y) ∧
    decodeWord (0x8001#16 + (x.zeroExtend 16 <<< 8) + (y.zeroExtend 16 <<< 4)) = some (.orVxVy x y) ∧
    decodeWord (0x8002#16 + (x.zeroExtend 16 <<< 8) + (y.zeroExtend 16 <<< 4)) = some (.andVxVy x y) ∧
    decodeWord (0x8003#16 + (x.zeroExtend 16 <<< 8) + (y.zeroExtend 16 <<< 4)) = some (.xorVxVy x y)

/-- ADD Vx,Vy: the sum modulo 256 and the carry out of the unbounded sum; there is no carry in. With `x = 0xF` the flag
remains, by the write order that is the spec's decision D9 (log 15); fields by D3 (log 14). -/
def Obligations.AddSetsCarry : Prop :=
  ∀ (x y : Reg) (s : State),
    decodeWord (0x8004#16 + (x.zeroExtend 16 <<< 8) + (y.zeroExtend 16 <<< 4)) = some (.addVxVy x y) ∧
    Completes (exec (.addVxVy x y) s) (fun t =>
      (x ≠ VF → (t.reg x).toNat = ((s.reg x).toNat + (s.reg y).toNat) % 256) ∧
      FlagIs t (255 < (s.reg x).toNat + (s.reg y).toNat) ∧
      OnlyChanges s t (fun p => p = .reg x ∨ p = .reg VF))

/-- SUB and SUBN: the difference modulo 256 and the strict no-borrow flag, so equal operands give 0 and flag 0. With `x = 0xF`
the flag remains (the spec's decision D9; log 15; fields by D3, log 14). -/
def Obligations.SubtractsSetStrictNoBorrow : Prop :=
  ∀ (x y : Reg) (s : State),
    decodeWord (0x8005#16 + (x.zeroExtend 16 <<< 8) + (y.zeroExtend 16 <<< 4)) = some (.subVxVy x y) ∧
    decodeWord (0x8007#16 + (x.zeroExtend 16 <<< 8) + (y.zeroExtend 16 <<< 4)) = some (.subnVxVy x y) ∧
    Completes (exec (.subVxVy x y) s) (fun t =>
      (x ≠ VF → ((t.reg x).toNat : Int) = ((s.reg x).toNat - (s.reg y).toNat : Int) % 256) ∧
      FlagIs t ((s.reg y).toNat < (s.reg x).toNat) ∧ OnlyChanges s t (fun p => p = .reg x ∨ p = .reg VF)) ∧
    Completes (exec (.subnVxVy x y) s) (fun t =>
      (x ≠ VF → ((t.reg x).toNat : Int) = ((s.reg y).toNat - (s.reg x).toNat : Int) % 256) ∧
      FlagIs t ((s.reg x).toNat < (s.reg y).toNat) ∧ OnlyChanges s t (fun p => p = .reg x ∨ p = .reg VF))

/-- SHR and SHL move `V[x]` by one place and put the bit that falls out into `V[0xF]`; `V[y]` plays no part (the spec's
decisions D9, D10; log 15; fields by D3, log 14; that the instruction carries `y` is the model's, log 13). -/
def Obligations.ShiftsMoveOnePlace : Prop :=
  ∀ (x y : Reg) (s : State),
    decodeWord (0x8006#16 + (x.zeroExtend 16 <<< 8) + (y.zeroExtend 16 <<< 4)) = some (.shrVx x y) ∧
    decodeWord (0x800E#16 + (x.zeroExtend 16 <<< 8) + (y.zeroExtend 16 <<< 4)) = some (.shlVx x y) ∧
    Completes (exec (.shrVx x y) s) (fun t =>
      (x ≠ VF → (t.reg x).toNat = (s.reg x).toNat / 2) ∧ FlagIs t ((s.reg x).toNat % 2 = 1) ∧
      OnlyChanges s t (fun p => p = .reg x ∨ p = .reg VF)) ∧
    Completes (exec (.shlVx x y) s) (fun t =>
      (x ≠ VF → (t.reg x).toNat = (s.reg x).toNat * 2 % 256) ∧ FlagIs t (128 ≤ (s.reg x).toNat) ∧
      OnlyChanges s t (fun p => p = .reg x ∨ p = .reg VF))

/-! ## Families 0xA, 0xB, 0xC -/

/-- LD I,nnn loads the zero-extended address and changes nothing else. -/
def Obligations.LdILoadsAddress : Prop :=
  ∀ (nnn : Addr) (s : State), decodeWord (0xA000#16 + nnn.zeroExtend 16) = some (.ldINnn nnn) ∧
    Completes (exec (.ldINnn nnn) s) (fun t => t.i.toNat = nnn.toNat ∧ OnlyChanges s t (fun p => p = .index))

/-- JP Vx,nnn adds the register its address's top digit names to the address, unreduced (the spec's decision D8; log 16;
fields by D3, log 14). On operands that no word has, `x` not being the top digit, it adds the register `x` names: the model's
choice (log 13). -/
def Obligations.JpVxAddsItsRegister : Prop :=
  ∀ (nnn : Addr) (s : State),
    decodeWord (0xB000#16 + nnn.zeroExtend 16) = some (.jpVxNnn (nnn.extractLsb' 8 4) nnn) ∧
    ∀ x : Reg, Completes (exec (.jpVxNnn x nnn) s) (fun t =>
      t.pc.toNat = nnn.toNat + (s.reg x).toNat ∧ OnlyChanges s t (fun p => p = .pc))

/-- RND puts the STEP's random byte under the mask into `V[x]`: the host's argument where it gave one, else a free value, of
which nothing is assumed; the old `V[x]` has no influence and no bit outside the mask is set (the spec's decision D18; the
fields `rndArg` and `draws` are the model's own, log 5). -/
def Obligations.RndMasksTheRandomByte : Prop :=
  ∀ (x : Reg) (kk : Byte) (s : State),
    decodeWord (0xC000#16 + (x.zeroExtend 16 <<< 8) + kk.zeroExtend 16) = some (.rndVxKk x kk) ∧
    Completes (exec (.rndVxKk x kk) s) (fun t =>
      (∀ r, s.rndArg = some r → t.reg x = r &&& kk ∧ t.draws = s.draws) ∧
      (s.rndArg = none → t.reg x = Config.freeRandom s.draws &&& kk ∧ t.draws = s.draws + 1) ∧
      t.rndArg = none ∧ t.reg x &&& ~~~kk = 0#8 ∧
      OnlyChanges s t (fun p => p = .reg x ∨ p = .rndArg ∨ p = .draws))

/-! ## Family 0xD -/

/-- DRW flips exactly the pixels its sprite covers (columns wrap, rows clip), sets `V[0xF]` to whether one of them was on,
marks the display dirty exactly if there is one, and changes nothing else. The anchor uses `V[0xF]` as it was before (D9,
log 15); all `n` bytes must be in memory (D14, log 17); fields by D3 (log 14). -/
def Obligations.DrwXorsItsSprite : Prop :=
  ∀ (x y : Reg) (n : Nibble) (s : State), n = 0#4 ∨ s.i.toNat + n.toNat ≤ 4096 →
    decodeWord (0xD000#16 + (x.zeroExtend 16 <<< 8) + (y.zeroExtend 16 <<< 4) + n.zeroExtend 16) =
      some (.drwVxVyN x y n) ∧
    Completes (exec (.drwVxVyN x y n) s) (fun t =>
      let covers := spriteCovers (s.bytesAtI n.toNat) ((s.reg x).toNat % 128) ((s.reg y).toNat % 64)
      (∀ px py, px < 128 → py < 64 → t.pixel px py = (s.pixel px py ^^ covers px py)) ∧
      FlagIs t (∃ px py, px < 128 ∧ py < 64 ∧ covers px py = true ∧ s.pixel px py = true) ∧
      (t.needsRedraw = true ↔ s.needsRedraw = true ∨ ∃ px py, px < 128 ∧ py < 64 ∧ covers px py = true) ∧
      OnlyChanges s t (fun p => p = .reg VF ∨ p = .dirty ∨ ∃ px py, px < 128 ∧ py < 64 ∧ p = .pixel px py))

/-- Drawing a sprite that has a pixel on an unclipped row twice at one place on a clear display turns every pixel back and
reports a collision the second time only. The registers that anchor it are not `V[0xF]`, which the first draw rewrites. -/
def Obligations.DrwTwiceRestoresTheDisplay : Prop :=
  ∀ (x y : Reg) (n : Nibble) (s : State), x ≠ VF → y ≠ VF → s.i.toNat + n.toNat ≤ 4096 →
    (∀ px py, s.pixel px py = false) →
    (∃ px py, px < 128 ∧
      spriteCovers (s.bytesAtI n.toNat) ((s.reg x).toNat % 128) ((s.reg y).toNat % 64) px py = true) →
    Completes (exec (.drwVxVyN x y n) s) (fun t => t.reg VF = 0#8 ∧
      Completes (exec (.drwVxVyN x y n) t) (fun u => u.reg VF = 1#8 ∧
        ∀ px py, px < 128 → py < 64 → u.pixel px py = s.pixel px py))

/-! ## Family 0xE -/

/-- SKP and SKNP compare all 8 bits of `V[x]` with the latched key: exactly one of them skips, and neither touches the latch
(full width is the spec's decision D23; log 16). -/
def Obligations.KeySkipsCompareTheLatchedKey : Prop :=
  ∀ (x : Reg) (s : State),
    decodeWord (0xE09E#16 + (x.zeroExtend 16 <<< 8)) = some (.skpVx x) ∧
    decodeWord (0xE0A1#16 + (x.zeroExtend 16 <<< 8)) = some (.sknpVx x) ∧
    Completes (exec (.skpVx x) s) (fun t =>
      t.pc = (if (s.reg x).toNat = s.keyCur.toNat then s.pc + 2#16 else s.pc) ∧ OnlyChanges s t (fun p => p = .pc)) ∧
    Completes (exec (.sknpVx x) s) (fun t =>
      t.pc = (if (s.reg x).toNat ≠ s.keyCur.toNat then s.pc + 2#16 else s.pc) ∧ OnlyChanges s t (fun p => p = .pc))

/-! ## Family 0xF -/

/-- LD Vx,DT reads the delay timer without changing it; LD DT,Vx and LD ST,Vx write the timers. -/
def Obligations.TimerInstructionsMoveBytes : Prop :=
  ∀ (x : Reg) (s : State),
    decodeWord (0xF007#16 + (x.zeroExtend 16 <<< 8)) = some (.ldVxDt x) ∧
    decodeWord (0xF015#16 + (x.zeroExtend 16 <<< 8)) = some (.ldDtVx x) ∧
    decodeWord (0xF018#16 + (x.zeroExtend 16 <<< 8)) = some (.ldStVx x) ∧
    Completes (exec (.ldVxDt x) s) (fun t => t.reg x = s.dt ∧ OnlyChanges s t (fun p => p = .reg x)) ∧
    Completes (exec (.ldDtVx x) s) (fun t => t.dt = s.reg x ∧ OnlyChanges s t (fun p => p = .delay)) ∧
    Completes (exec (.ldStVx x) s) (fun t => t.st = s.reg x ∧ OnlyChanges s t (fun p => p = .sound))

/-- LD Vx,K with a transition latched stores the current key and goes on; without one it puts pc back and stores nothing. It
never clears the flag. -/
def Obligations.KeyWaitTestsTheTransition : Prop :=
  ∀ (x : Reg) (s : State), decodeWord (0xF00A#16 + (x.zeroExtend 16 <<< 8)) = some (.ldVxK x) ∧
    (s.keyTransition = true → Completes (exec (.ldVxK x) s) (fun t =>
      (t.reg x).toNat = s.keyCur.toNat ∧ OnlyChanges s t (fun p => p = .reg x))) ∧
    (s.keyTransition = false → Completes (exec (.ldVxK x) s) (fun t =>
      t.pc = s.pc - 2#16 ∧ OnlyChanges s t (fun p => p = .pc)))

/-- However many STEPs are issued, a machine waiting at LD Vx,K with no transition latched stays exactly as it is; the first
STEP after the press of a different key stores that key and passes the instruction. -/
def Obligations.KeyWaitHoldsUntilANewKey : Prop :=
  ∀ (x : Reg) (s : State), s.Fetches (.instr (.ldVxK x) []) → s.keyTransition = false →
    (∀ k, core.run k s = .next s) ∧
    ∀ key : Key, key ≠ s.keyCur → Completes (step (s.keyPress key)) (fun t =>
      (t.reg x).toNat = key.toNat ∧ t.pc = s.pc + 2#16 ∧ OnlyChanges (s.keyPress key) t (fun p => p = .reg x ∨ p = .pc))

/-- ADD I,Vx adds modulo 65536 without a flag (the spec's decision D11); LD F,Vx points `I` at the glyph of the full 8-bit
value (the spec's decision D12) (log 16). -/
def Obligations.IndexArithmetic : Prop :=
  ∀ (x : Reg) (s : State),
    decodeWord (0xF01E#16 + (x.zeroExtend 16 <<< 8)) = some (.addIVx x) ∧
    decodeWord (0xF029#16 + (x.zeroExtend 16 <<< 8)) = some (.ldFVx x) ∧
    Completes (exec (.addIVx x) s) (fun t =>
      t.i.toNat = (s.i.toNat + (s.reg x).toNat) % 65536 ∧ OnlyChanges s t (fun p => p = .index)) ∧
    Completes (exec (.ldFVx x) s) (fun t =>
      t.i.toNat = 0x50 + 5 * (s.reg x).toNat ∧ OnlyChanges s t (fun p => p = .index))

/-- LD B,Vx stores hundreds, tens and ones at `I`, `I + 1`, `I + 2`, anywhere in memory, and changes no other byte and nothing
else (the range check first is the spec's decision D4, the writable font D13; log 17). -/
def Obligations.LdBStoresDecimalDigits : Prop :=
  ∀ (x : Reg) (s : State), s.i.toNat + 2 ≤ 4095 →
    decodeWord (0xF033#16 + (x.zeroExtend 16 <<< 8)) = some (.ldBVx x) ∧
    Completes (exec (.ldBVx x) s) (fun t =>
      (t.readByte (s.effAddr 0)).toNat = (s.reg x).toNat / 100 ∧
      (t.readByte (s.effAddr 1)).toNat = (s.reg x).toNat / 10 % 10 ∧
      (t.readByte (s.effAddr 2)).toNat = (s.reg x).toNat % 10 ∧
      OnlyChanges s t (fun p => p = .byte (s.effAddr 0) ∨ p = .byte (s.effAddr 1) ∨ p = .byte (s.effAddr 2)))

/-- LD [I],Vx stores `V0` to `Vx` at `I` upward, leaves `I` and every register, and changes no other byte (D4, D13; log 17). -/
def Obligations.BlockStoreCopiesRegisters : Prop :=
  ∀ (x : Reg) (s : State), s.i.toNat + x.toNat ≤ 4095 →
    decodeWord (0xF055#16 + (x.zeroExtend 16 <<< 8)) = some (.ldMemVx x) ∧
    Completes (exec (.ldMemVx x) s) (fun t =>
      (∀ r : Reg, r.toNat ≤ x.toNat → t.readByte (s.effAddr r.toNat) = s.reg r) ∧
      OnlyChanges s t (fun p => ∃ r : Reg, r.toNat ≤ x.toNat ∧ p = .byte (s.effAddr r.toNat)))

/-- LD Vx,[I] loads `V0` to `Vx` from `I` upward, leaves `I`, memory and the other registers (D4; log 17). -/
def Obligations.BlockLoadCopiesMemory : Prop :=
  ∀ (x : Reg) (s : State), s.i.toNat + x.toNat ≤ 4095 →
    decodeWord (0xF065#16 + (x.zeroExtend 16 <<< 8)) = some (.ldVxMem x) ∧
    Completes (exec (.ldVxMem x) s) (fun t =>
      (∀ r : Reg, r.toNat ≤ x.toNat → t.reg r = s.readByte (s.effAddr r.toNat)) ∧
      OnlyChanges s t (fun p => ∃ r : Reg, r.toNat ≤ x.toNat ∧ p = .reg r))

/-- What LD [I],Vx stored, LD Vx,[I] brings back, whatever happened to the registers in between, from the same `I` (D4; log
17). -/
def Obligations.StoreThenLoadRestoresRegisters : Prop :=
  ∀ (x : Reg) (s t u : State), s.i.toNat + x.toNat ≤ 4095 → exec (.ldMemVx x) s = .next t → u.i = t.i →
    u.mem = t.mem → Completes (exec (.ldVxMem x) u) (fun v =>
      v.i = s.i ∧ ∀ r : Reg, r.toNat ≤ x.toNat → v.reg r = s.reg r)

/-- DRW, LD B, LD [I] and LD Vx,[I] whose range leaves memory take MemoryOutOfRange with the first address outside and change
nothing else, not even a byte that was in range (the spec's decisions D4, D14; logs 6, 17). -/
def Obligations.RangeFaultChangesNothingElse : Prop :=
  ∀ (i : Instr) (s : State), 0 < i.accessLength → 4096 < s.i.toNat + i.accessLength →
    Completes (exec i s) (fun t =>
      (∃ a : Word, t.fault = some (.memoryOutOfRange a) ∧ a.toNat = max s.i.toNat 4096) ∧
      OnlyChanges s t (fun p => p = .fault))

/-! ## The whole machine -/

/-- Only the instructions the state's rules name write each part but the general registers: memory by LD B and LD [I], `I` by
LD I, ADD I and LD F, pc (after its fetch) by skips, jumps, CALL, RET and LD Vx,K, the call stack by CALL and RET, pixels and
the dirty flag by CLS and DRW, the timers by LD DT and LD ST, the fault status by RET, CALL, DRW, LD B, LD [I] and LD Vx,[I]
(the spec's decisions D4 to D6; log 6); no instruction writes the input latch or the parameter STACK_DEPTH (log 2). The random
byte's fields, the model's own (log 5), are written by RND alone. -/
def Obligations.OnlyTheNamedInstructionsWrite : Prop :=
  ∀ (i : Instr) (s t : State), exec i s = .next t →
    ((∀ x, i ≠ .ldBVx x) → (∀ x, i ≠ .ldMemVx x) → t.mem = s.mem) ∧
    ((∀ a, i ≠ .ldINnn a) → (∀ x, i ≠ .addIVx x) → (∀ x, i ≠ .ldFVx x) → t.i = s.i) ∧
    ((∀ x kk, i ≠ .seVxKk x kk) → (∀ x kk, i ≠ .sneVxKk x kk) → (∀ x y, i ≠ .seVxVy x y) → (∀ x y, i ≠ .sneVxVy x y) →
      (∀ x, i ≠ .skpVx x) → (∀ x, i ≠ .sknpVx x) → (∀ a, i ≠ .jpNnn a) → (∀ x a, i ≠ .jpVxNnn x a) →
      (∀ a, i ≠ .callNnn a) → (∀ b, i ≠ .ret b) → (∀ x, i ≠ .ldVxK x) → t.pc = s.pc) ∧
    ((∀ a, i ≠ .callNnn a) → (∀ b, i ≠ .ret b) → t.stack = s.stack) ∧
    ((∀ b, i ≠ .ret b) → (∀ a, i ≠ .callNnn a) → (∀ x y n, i ≠ .drwVxVyN x y n) → (∀ x, i ≠ .ldBVx x) →
      (∀ x, i ≠ .ldMemVx x) → (∀ x, i ≠ .ldVxMem x) → t.fault = s.fault) ∧
    ((∀ b, i ≠ .cls b) → (∀ x y n, i ≠ .drwVxVyN x y n) → t.disp = s.disp ∧ t.needsRedraw = s.needsRedraw) ∧
    ((∀ x, i ≠ .ldDtVx x) → t.dt = s.dt) ∧ ((∀ x, i ≠ .ldStVx x) → t.st = s.st) ∧
    t.keyCur = s.keyCur ∧ t.keyPrev = s.keyPrev ∧ t.keyTransition = s.keyTransition ∧ t.stackDepth = s.stackDepth ∧
    ((∀ x kk, i ≠ .rndVxKk x kk) → t.rndArg = s.rndArg ∧ t.draws = s.draws)

/-- A register changes only in an instruction that names it as a destination, loads it, or writes it as the flag output. -/
def Obligations.OnlyDestinationRegistersChange : Prop :=
  ∀ (i : Instr) (s t : State), exec i s = .next t → ∀ q : Reg, ¬ i.writesReg q → t.reg q = s.reg q

/-- The previous key, the dirty flag and the sound timer never influence an instruction: a step from a state that differs in
these leads to a state that differs in these alone, the previous key even by the same value. -/
def Obligations.HiddenStateNeverInfluencesAStep : Prop :=
  ∀ (s t : State) (key : Key) (dirty : Bool) (sound : Byte), step s = .next t →
    ∃ (dirty' : Bool) (sound' : Byte),
      step { s with keyPrev := key, needsRedraw := dirty, st := sound } =
        .next { t with keyPrev := key, needsRedraw := dirty', st := sound' }

/-- The delay timer influences an instruction only through LD Vx,DT: any other leads from a state that differs in the timer
alone to one that differs in the timer alone. -/
def Obligations.DelayTimerIsReadByOneInstruction : Prop :=
  ∀ (i : Instr) (s t : State) (b : Byte), (∀ x, i ≠ .ldVxDt x) → exec i s = .next t →
    ∃ b', exec i { s with dt := b } = .next { t with dt := b' }

/-- A store is seen by the very next fetch: LD [I],Vx that stores onto the instruction after it plants the word `{V0, V1}`
there (D3 for the byte order, log 14; D4, log 17). -/
def Obligations.StoredInstructionIsFetchedNext : Prop :=
  ∀ (x : Reg) (s : State), s.Fetches (.instr (.ldMemVx x) []) → 1 ≤ x.toNat → s.i = s.pc + 2#16 →
    s.i.toNat + x.toNat ≤ 4095 →
    Completes (step s) (fun t => t.pc = s.pc + 2#16 ∧
      ∀ i, decodeWord (s.reg 0x0#4 ++ s.reg 0x1#4) = some i → t.Fetches (.instr i []))

/-- At the end loop every further STEP leaves all state unchanged (the end loop is the spec's convention D26). -/
def Obligations.EndLoopLeavesAllState : Prop :=
  ∀ s : State, s.AtEndLoop → ∀ k, core.run k s = .next s

/-- The invariant holds after reset. Reset values not stated by the source are D15 and log 4, the keys log 3. -/
def Obligations.InvariantHoldsAtReset : Prop := State.reset.Inv ∧ Block.reset.core.Inv

/-- Every step keeps the invariant: memory in canonical form, the stack within STACK_DEPTH and holding addresses up to 4096,
pc up to 0x10FE so that it never wraps, and every recorded fault explained by the state (the bound on pc rests on D8, the
depth on D7, the faults on D4 to D6; logs 2, 6, 9, 16). -/
def Obligations.EveryStepKeepsTheInvariant : Prop :=
  ∀ s t : State, s.Inv → step s = .next t → t.Inv

/-- Every command of every schedule keeps the invariant, so it holds whatever the host does, in whatever order (D1, D22; log
7). -/
def Obligations.EveryScheduleKeepsTheInvariant : Prop :=
  ∀ (cs : List Command) (b b' : Block) (rs : List Response), b.core.Inv → b.run cs = .next (rs, b') → b'.core.Inv

/-! ## Host commands -/

/-- The command TICK decrements both timers by exactly 1, each floored at 0, however often it is given, and changes nothing
else. -/
def Obligations.TickCountsDownToZero : Prop :=
  (∀ b : Block, b.apply .tick = .next (.done, { b with core := b.core.tick })) ∧
  (∀ s : State, OnlyChanges s s.tick (fun p => p = .delay ∨ p = .sound)) ∧
  ∀ (s : State) (k : Nat), (State.tick^[k] s).dt.toNat = s.dt.toNat - k ∧ (State.tick^[k] s).st.toNat = s.st.toNat - k

/-- KEY_PRESS moves the current key to the previous one, latches the code, and sets the transition flag exactly when they
differ, never clearing it; CLEAR_KEY_TRANSITION clears the flag alone. -/
def Obligations.KeyCommandsDriveTheLatch : Prop :=
  ∀ (b : Block) (code : Key),
    (∃ t, b.apply (.keyPress code) = .next (.done, { b with core := t }) ∧ t.keyPrev = b.core.keyCur ∧ t.keyCur = code ∧
      (t.keyTransition = true ↔ b.core.keyTransition = true ∨ code ≠ b.core.keyCur) ∧
      OnlyChanges b.core t (fun p => p = .keyCur ∨ p = .keyPrev ∨ p = .keyTransition)) ∧
    (∃ t, b.apply .clearKeyTransition = .next (.done, { b with core := t }) ∧ t.keyTransition = false ∧
      OnlyChanges b.core t (fun p => p = .keyTransition))

/-- READ_DISPLAY and NEEDS_REDRAW are pure reads of the grid and the flag; CLEAR_REDRAW clears the flag alone, and no other
command but RESET, so no instruction, clears it. -/
def Obligations.DisplayCommandsReadAndClear : Prop :=
  ∀ b : Block,
    (∃ d, b.apply .readDisplay = .next (.display d, b) ∧
      ∀ px py, px < 128 → py < 64 → Display.get d px py = b.core.pixel px py) ∧
    b.apply .needsRedraw = .next (.redraw b.core.needsRedraw, b) ∧
    (∃ t, b.apply .clearRedraw = .next (.done, { b with core := t }) ∧ t.needsRedraw = false ∧
      OnlyChanges b.core t (fun p => p = .dirty)) ∧
    ∀ (c : Command) (r : Response) (b' : Block), c ≠ .clearRedraw → c ≠ .reset → b.apply c = .next (r, b') →
      b.core.needsRedraw = true → b'.core.needsRedraw = true

/-- LOAD in its window succeeds exactly when the image fits from 0x200 on; it copies it there and changes no other byte and
nothing else; a rejected image changes nothing at all (the spec's decision D22; log 7). -/
def Obligations.LoadCopiesAFittingImage : Prop :=
  ∀ (b : Block) (bytes : List Byte), b.mayLoad = true →
    (0x200 + bytes.length ≤ 4096 →
      ∃ t, b.apply (.load bytes) = .next (.ok, { b with core := t }) ∧
        (∀ j, j < bytes.length → t.readByte (0x200 + j) = bytes.getD j 0#8) ∧
        OnlyChanges b.core t (fun p => ∃ j, j < bytes.length ∧ p = .byte (0x200 + j))) ∧
    (4096 < 0x200 + bytes.length → b.apply (.load bytes) = .next (.loadError, b))

/-- LOAD has no move once a STEP was issued, whatever commands but RESET follow; RESET opens its window again (the spec's
decision D22; that the block remembers it is the model's, log 7). -/
def Obligations.LoadHasNoMoveAfterAStep : Prop :=
  ∀ (b b1 b2 : Block) (rnd : Byte) (r : Response) (rs : List Response) (cs : List Command) (bytes : List Byte),
    b.apply (.step rnd) = .next (r, b1) → Command.reset ∉ cs → b1.run cs = .next (rs, b2) →
    b2.apply (.load bytes) = .refused .loadOutsideWindow ∧
    ∃ b3, b2.apply .reset = .next (.done, b3) ∧ b3.mayLoad = true

/-- RESET, at any time and on a halted machine too, leaves: pc 0x200, all bytes below 0x200 outside the font zero, and by the
spec's decisions D5 and D15 (logs 4, 6) memory from 0x200 zero, registers, `I` and timers zero, the stack empty, the display
off and clean, no transition, no fault. The font region and the keys hold their OPEN parameters (D16, log 1; D17, log 3), the
OPEN STACK_DEPTH stays (log 2); of the model's own fields no argument is left and the count of free draws goes on (log 5). -/
def Obligations.ResetLeavesTheseValues : Prop :=
  ∀ b : Block, ∃ t, b.apply .reset = .next (.done, { core := t, stepped := false }) ∧
    t.pc = 0x200#16 ∧ (∀ a, a < 4096 → ¬ (0x50 ≤ a ∧ a ≤ 0x9F) → t.readByte a = 0#8) ∧ (∀ r, t.reg r = 0#8) ∧
    t.i = 0#16 ∧ t.stack = [] ∧ (∀ px py, t.pixel px py = false) ∧ t.needsRedraw = false ∧ t.dt = 0#8 ∧ t.st = 0#8 ∧
    t.keyCur = keyCurReset ∧ t.keyPrev = keyPrevReset ∧ t.keyTransition = false ∧ t.fault = none ∧
    (∀ j, j < 80 → t.readByte (0x50 + j) = fontTable.getD j 0#8) ∧ t.stackDepth = b.core.stackDepth ∧
    t.rndArg = none ∧ t.draws = b.core.draws

/-- On a halted machine the timer, key and display commands have their normal effect: what each does and answers does not
depend on the fault status, which it leaves (the spec's decision D24; log 19). -/
def Obligations.HostCommandsIgnoreTheFaultStatus : Prop :=
  ∀ (b b' : Block) (f : Option Fault) (c : Command) (r : Response),
    c ∈ [.tick, .clearKeyTransition, .readDisplay, .needsRedraw, .clearRedraw] ∨ (∃ code, c = .keyPress code) →
    b.apply c = .next (r, b') →
    b'.core.fault = b.core.fault ∧
    Block.apply { b with core := { b.core with fault := f } } c = .next (r, { b' with core := { b'.core with fault := f } })

/-- One iteration of the reference schedule (key presses, STEP, CLEAR_KEY_TRANSITION) can be run from every block and ends
with no transition latched and the last key reported as the current one, whatever the STEP executed; a key reported between
STEP and the clear has its transition erased and is the current key all the same (R205; halted machines by D24, log 19). -/
def Obligations.ReferenceIterationClearsTheTransition : Prop :=
  ∀ (b : Block) (keys : List Key) (rnd : Byte),
    (∃ rs b', b.run (referenceIteration keys rnd) = .next (rs, b') ∧ b'.core.keyTransition = false ∧
      b'.core.keyCur = keys.getLastD b.core.keyCur) ∧
    ∀ late : Key, ∃ rs b', b.run (keys.map Command.keyPress ++ [.step rnd, .keyPress late, .clearKeyTransition]) =
      .next (rs, b') ∧ b'.core.keyTransition = false ∧ b'.core.keyCur = late

/-- The dirty flag misses no change and is cleared by CLEAR_REDRAW and RESET alone: after a frame of the reference protocol
(NEEDS_REDRAW, READ_DISPLAY, CLEAR_REDRAW) and any commands but these two, a grid that differs from the one READ_DISPLAY
answered is marked dirty; and a display that is dirty stays so through any commands but these two. -/
def Obligations.DirtyFlagMissesNoChange : Prop :=
  ∀ (b b' : Block) (cs : List Command) (rs : List Response), Command.reset ∉ cs → Command.clearRedraw ∉ cs →
    (b.run (redrawFrame ++ cs) = .next (rs, b') →
      ∃ d, rs[1]? = some (.display d) ∧
        ((∃ px py, b'.core.pixel px py ≠ Display.get d px py) → b'.core.needsRedraw = true)) ∧
    (b.run cs = .next (rs, b') → b.core.needsRedraw = true → b'.core.needsRedraw = true)

/-- STEP(rnd) is one step with its argument: the answer is ok, the reserved word, or the fault, as what it executed decides,
and the argument does not outlive it (D1, D18; logs 5, 7). -/
def Obligations.StepCommandAnswersWhatItExecuted : Prop :=
  ∀ (b : Block) (rnd : Byte), b.core.Running →
    ∃ t r, step { b.core with rndArg := some rnd } = .next t ∧
      b.apply (.step rnd) = .next (r, { core := { t with rndArg := none }, stepped := true }) ∧
      (∀ f, t.fault = some f → r = .fault f) ∧
      (∀ w, b.core.Fetches (.reserved w []) → r = .okUnrecognized w) ∧
      (t.fault = none → ∀ i, b.core.Fetches (.instr i []) → r = .ok)

/-- A STEP that executes anything but RND, a reserved word or a fetch fault too, ignores the random byte: its argument and the
free ones (R119; the spec's decision D18). The fields they stand in are the model's own (log 5); the step leaves them. -/
def Obligations.RandomByteIsReadByRndAlone : Prop :=
  (∀ (i : Instr) (s t : State) (arg : Option Byte) (count : Nat), (∀ x kk, i ≠ .rndVxKk x kk) → exec i s = .next t →
    exec i { s with rndArg := arg, draws := count } = .next { t with rndArg := arg, draws := count }) ∧
  ∀ (s t : State) (arg : Option Byte) (count : Nat), (∀ x kk, ¬ s.Fetches (.instr (.rndVxKk x kk) [])) → step s = .next t →
    step { s with rndArg := arg, draws := count } = .next { t with rndArg := arg, draws := count }
end

