-- ==== Sys2Proof/Laws/State.lean ====
section
/-! SUPPORT. What each update of the state leaves in each field, and in each derived read, so that no proof unfolds a record
update. -/

namespace Sys2Proof.Machine

/-- A full stack is one of the depth STACK_DEPTH gives (R15). -/
@[simp] theorem State.stackFull_iff (s : State) : s.StackFull ↔ s.stackDepth = some s.stack.length := Iff.rfl

/-! ## setReg -/

@[simp] theorem State.setReg_v (s : State) (r : Reg) (b : Byte) : (s.setReg r b).v = s.v.set r.toFin b := rfl
@[simp] theorem State.setReg_i (s : State) (r : Reg) (b : Byte) : (s.setReg r b).i = s.i := rfl
@[simp] theorem State.setReg_pc (s : State) (r : Reg) (b : Byte) : (s.setReg r b).pc = s.pc := rfl
@[simp] theorem State.setReg_stack (s : State) (r : Reg) (b : Byte) : (s.setReg r b).stack = s.stack := rfl
@[simp] theorem State.setReg_mem (s : State) (r : Reg) (b : Byte) : (s.setReg r b).mem = s.mem := rfl
@[simp] theorem State.setReg_disp (s : State) (r : Reg) (b : Byte) : (s.setReg r b).disp = s.disp := rfl
@[simp] theorem State.setReg_needsRedraw (s : State) (r : Reg) (b : Byte) : (s.setReg r b).needsRedraw = s.needsRedraw := rfl
@[simp] theorem State.setReg_dt (s : State) (r : Reg) (b : Byte) : (s.setReg r b).dt = s.dt := rfl
@[simp] theorem State.setReg_st (s : State) (r : Reg) (b : Byte) : (s.setReg r b).st = s.st := rfl
@[simp] theorem State.setReg_keyCur (s : State) (r : Reg) (b : Byte) : (s.setReg r b).keyCur = s.keyCur := rfl
@[simp] theorem State.setReg_keyPrev (s : State) (r : Reg) (b : Byte) : (s.setReg r b).keyPrev = s.keyPrev := rfl
@[simp] theorem State.setReg_keyTransition (s : State) (r : Reg) (b : Byte) : (s.setReg r b).keyTransition = s.keyTransition := rfl
@[simp] theorem State.setReg_fault (s : State) (r : Reg) (b : Byte) : (s.setReg r b).fault = s.fault := rfl
@[simp] theorem State.setReg_rndArg (s : State) (r : Reg) (b : Byte) : (s.setReg r b).rndArg = s.rndArg := rfl
@[simp] theorem State.setReg_draws (s : State) (r : Reg) (b : Byte) : (s.setReg r b).draws = s.draws := rfl
@[simp] theorem State.setReg_stackDepth (s : State) (r : Reg) (b : Byte) : (s.setReg r b).stackDepth = s.stackDepth := rfl
@[simp] theorem State.setReg_readByte (s : State) (r : Reg) (b : Byte) (c : Nat) : (s.setReg r b).readByte c = s.readByte c := rfl
@[simp] theorem State.setReg_pixel (s : State) (r : Reg) (b : Byte) (px py : Nat) : (s.setReg r b).pixel px py = s.pixel px py := rfl

/-! ## setI -/

@[simp] theorem State.setI_v (s : State) (a : Word) : (s.setI a).v = s.v := rfl
@[simp] theorem State.setI_i (s : State) (a : Word) : (s.setI a).i = a := rfl
@[simp] theorem State.setI_pc (s : State) (a : Word) : (s.setI a).pc = s.pc := rfl
@[simp] theorem State.setI_stack (s : State) (a : Word) : (s.setI a).stack = s.stack := rfl
@[simp] theorem State.setI_mem (s : State) (a : Word) : (s.setI a).mem = s.mem := rfl
@[simp] theorem State.setI_disp (s : State) (a : Word) : (s.setI a).disp = s.disp := rfl
@[simp] theorem State.setI_needsRedraw (s : State) (a : Word) : (s.setI a).needsRedraw = s.needsRedraw := rfl
@[simp] theorem State.setI_dt (s : State) (a : Word) : (s.setI a).dt = s.dt := rfl
@[simp] theorem State.setI_st (s : State) (a : Word) : (s.setI a).st = s.st := rfl
@[simp] theorem State.setI_keyCur (s : State) (a : Word) : (s.setI a).keyCur = s.keyCur := rfl
@[simp] theorem State.setI_keyPrev (s : State) (a : Word) : (s.setI a).keyPrev = s.keyPrev := rfl
@[simp] theorem State.setI_keyTransition (s : State) (a : Word) : (s.setI a).keyTransition = s.keyTransition := rfl
@[simp] theorem State.setI_fault (s : State) (a : Word) : (s.setI a).fault = s.fault := rfl
@[simp] theorem State.setI_rndArg (s : State) (a : Word) : (s.setI a).rndArg = s.rndArg := rfl
@[simp] theorem State.setI_draws (s : State) (a : Word) : (s.setI a).draws = s.draws := rfl
@[simp] theorem State.setI_stackDepth (s : State) (a : Word) : (s.setI a).stackDepth = s.stackDepth := rfl
@[simp] theorem State.setI_reg (s : State) (a : Word) (q : Reg) : (s.setI a).reg q = s.reg q := rfl
@[simp] theorem State.setI_readByte (s : State) (a : Word) (c : Nat) : (s.setI a).readByte c = s.readByte c := rfl
@[simp] theorem State.setI_pixel (s : State) (a : Word) (px py : Nat) : (s.setI a).pixel px py = s.pixel px py := rfl

/-! ## setPc -/

@[simp] theorem State.setPc_v (s : State) (a : Word) : (s.setPc a).v = s.v := rfl
@[simp] theorem State.setPc_i (s : State) (a : Word) : (s.setPc a).i = s.i := rfl
@[simp] theorem State.setPc_pc (s : State) (a : Word) : (s.setPc a).pc = a := rfl
@[simp] theorem State.setPc_stack (s : State) (a : Word) : (s.setPc a).stack = s.stack := rfl
@[simp] theorem State.setPc_mem (s : State) (a : Word) : (s.setPc a).mem = s.mem := rfl
@[simp] theorem State.setPc_disp (s : State) (a : Word) : (s.setPc a).disp = s.disp := rfl
@[simp] theorem State.setPc_needsRedraw (s : State) (a : Word) : (s.setPc a).needsRedraw = s.needsRedraw := rfl
@[simp] theorem State.setPc_dt (s : State) (a : Word) : (s.setPc a).dt = s.dt := rfl
@[simp] theorem State.setPc_st (s : State) (a : Word) : (s.setPc a).st = s.st := rfl
@[simp] theorem State.setPc_keyCur (s : State) (a : Word) : (s.setPc a).keyCur = s.keyCur := rfl
@[simp] theorem State.setPc_keyPrev (s : State) (a : Word) : (s.setPc a).keyPrev = s.keyPrev := rfl
@[simp] theorem State.setPc_keyTransition (s : State) (a : Word) : (s.setPc a).keyTransition = s.keyTransition := rfl
@[simp] theorem State.setPc_fault (s : State) (a : Word) : (s.setPc a).fault = s.fault := rfl
@[simp] theorem State.setPc_rndArg (s : State) (a : Word) : (s.setPc a).rndArg = s.rndArg := rfl
@[simp] theorem State.setPc_draws (s : State) (a : Word) : (s.setPc a).draws = s.draws := rfl
@[simp] theorem State.setPc_stackDepth (s : State) (a : Word) : (s.setPc a).stackDepth = s.stackDepth := rfl
@[simp] theorem State.setPc_reg (s : State) (a : Word) (q : Reg) : (s.setPc a).reg q = s.reg q := rfl
@[simp] theorem State.setPc_readByte (s : State) (a : Word) (c : Nat) : (s.setPc a).readByte c = s.readByte c := rfl
@[simp] theorem State.setPc_pixel (s : State) (a : Word) (px py : Nat) : (s.setPc a).pixel px py = s.pixel px py := rfl

/-! ## setDt -/

@[simp] theorem State.setDt_v (s : State) (b : Byte) : (s.setDt b).v = s.v := rfl
@[simp] theorem State.setDt_i (s : State) (b : Byte) : (s.setDt b).i = s.i := rfl
@[simp] theorem State.setDt_pc (s : State) (b : Byte) : (s.setDt b).pc = s.pc := rfl
@[simp] theorem State.setDt_stack (s : State) (b : Byte) : (s.setDt b).stack = s.stack := rfl
@[simp] theorem State.setDt_mem (s : State) (b : Byte) : (s.setDt b).mem = s.mem := rfl
@[simp] theorem State.setDt_disp (s : State) (b : Byte) : (s.setDt b).disp = s.disp := rfl
@[simp] theorem State.setDt_needsRedraw (s : State) (b : Byte) : (s.setDt b).needsRedraw = s.needsRedraw := rfl
@[simp] theorem State.setDt_dt (s : State) (b : Byte) : (s.setDt b).dt = b := rfl
@[simp] theorem State.setDt_st (s : State) (b : Byte) : (s.setDt b).st = s.st := rfl
@[simp] theorem State.setDt_keyCur (s : State) (b : Byte) : (s.setDt b).keyCur = s.keyCur := rfl
@[simp] theorem State.setDt_keyPrev (s : State) (b : Byte) : (s.setDt b).keyPrev = s.keyPrev := rfl
@[simp] theorem State.setDt_keyTransition (s : State) (b : Byte) : (s.setDt b).keyTransition = s.keyTransition := rfl
@[simp] theorem State.setDt_fault (s : State) (b : Byte) : (s.setDt b).fault = s.fault := rfl
@[simp] theorem State.setDt_rndArg (s : State) (b : Byte) : (s.setDt b).rndArg = s.rndArg := rfl
@[simp] theorem State.setDt_draws (s : State) (b : Byte) : (s.setDt b).draws = s.draws := rfl
@[simp] theorem State.setDt_stackDepth (s : State) (b : Byte) : (s.setDt b).stackDepth = s.stackDepth := rfl
@[simp] theorem State.setDt_reg (s : State) (b : Byte) (q : Reg) : (s.setDt b).reg q = s.reg q := rfl
@[simp] theorem State.setDt_readByte (s : State) (b : Byte) (c : Nat) : (s.setDt b).readByte c = s.readByte c := rfl
@[simp] theorem State.setDt_pixel (s : State) (b : Byte) (px py : Nat) : (s.setDt b).pixel px py = s.pixel px py := rfl

/-! ## setSt -/

@[simp] theorem State.setSt_v (s : State) (b : Byte) : (s.setSt b).v = s.v := rfl
@[simp] theorem State.setSt_i (s : State) (b : Byte) : (s.setSt b).i = s.i := rfl
@[simp] theorem State.setSt_pc (s : State) (b : Byte) : (s.setSt b).pc = s.pc := rfl
@[simp] theorem State.setSt_stack (s : State) (b : Byte) : (s.setSt b).stack = s.stack := rfl
@[simp] theorem State.setSt_mem (s : State) (b : Byte) : (s.setSt b).mem = s.mem := rfl
@[simp] theorem State.setSt_disp (s : State) (b : Byte) : (s.setSt b).disp = s.disp := rfl
@[simp] theorem State.setSt_needsRedraw (s : State) (b : Byte) : (s.setSt b).needsRedraw = s.needsRedraw := rfl
@[simp] theorem State.setSt_dt (s : State) (b : Byte) : (s.setSt b).dt = s.dt := rfl
@[simp] theorem State.setSt_st (s : State) (b : Byte) : (s.setSt b).st = b := rfl
@[simp] theorem State.setSt_keyCur (s : State) (b : Byte) : (s.setSt b).keyCur = s.keyCur := rfl
@[simp] theorem State.setSt_keyPrev (s : State) (b : Byte) : (s.setSt b).keyPrev = s.keyPrev := rfl
@[simp] theorem State.setSt_keyTransition (s : State) (b : Byte) : (s.setSt b).keyTransition = s.keyTransition := rfl
@[simp] theorem State.setSt_fault (s : State) (b : Byte) : (s.setSt b).fault = s.fault := rfl
@[simp] theorem State.setSt_rndArg (s : State) (b : Byte) : (s.setSt b).rndArg = s.rndArg := rfl
@[simp] theorem State.setSt_draws (s : State) (b : Byte) : (s.setSt b).draws = s.draws := rfl
@[simp] theorem State.setSt_stackDepth (s : State) (b : Byte) : (s.setSt b).stackDepth = s.stackDepth := rfl
@[simp] theorem State.setSt_reg (s : State) (b : Byte) (q : Reg) : (s.setSt b).reg q = s.reg q := rfl
@[simp] theorem State.setSt_readByte (s : State) (b : Byte) (c : Nat) : (s.setSt b).readByte c = s.readByte c := rfl
@[simp] theorem State.setSt_pixel (s : State) (b : Byte) (px py : Nat) : (s.setSt b).pixel px py = s.pixel px py := rfl

/-! ## raise -/

@[simp] theorem State.raise_v (s : State) (f : Fault) : (s.raise f).v = s.v := rfl
@[simp] theorem State.raise_i (s : State) (f : Fault) : (s.raise f).i = s.i := rfl
@[simp] theorem State.raise_pc (s : State) (f : Fault) : (s.raise f).pc = s.pc := rfl
@[simp] theorem State.raise_stack (s : State) (f : Fault) : (s.raise f).stack = s.stack := rfl
@[simp] theorem State.raise_mem (s : State) (f : Fault) : (s.raise f).mem = s.mem := rfl
@[simp] theorem State.raise_disp (s : State) (f : Fault) : (s.raise f).disp = s.disp := rfl
@[simp] theorem State.raise_needsRedraw (s : State) (f : Fault) : (s.raise f).needsRedraw = s.needsRedraw := rfl
@[simp] theorem State.raise_dt (s : State) (f : Fault) : (s.raise f).dt = s.dt := rfl
@[simp] theorem State.raise_st (s : State) (f : Fault) : (s.raise f).st = s.st := rfl
@[simp] theorem State.raise_keyCur (s : State) (f : Fault) : (s.raise f).keyCur = s.keyCur := rfl
@[simp] theorem State.raise_keyPrev (s : State) (f : Fault) : (s.raise f).keyPrev = s.keyPrev := rfl
@[simp] theorem State.raise_keyTransition (s : State) (f : Fault) : (s.raise f).keyTransition = s.keyTransition := rfl
@[simp] theorem State.raise_fault (s : State) (f : Fault) : (s.raise f).fault = some f := rfl
@[simp] theorem State.raise_rndArg (s : State) (f : Fault) : (s.raise f).rndArg = s.rndArg := rfl
@[simp] theorem State.raise_draws (s : State) (f : Fault) : (s.raise f).draws = s.draws := rfl
@[simp] theorem State.raise_stackDepth (s : State) (f : Fault) : (s.raise f).stackDepth = s.stackDepth := rfl
@[simp] theorem State.raise_reg (s : State) (f : Fault) (q : Reg) : (s.raise f).reg q = s.reg q := rfl
@[simp] theorem State.raise_readByte (s : State) (f : Fault) (c : Nat) : (s.raise f).readByte c = s.readByte c := rfl
@[simp] theorem State.raise_pixel (s : State) (f : Fault) (px py : Nat) : (s.raise f).pixel px py = s.pixel px py := rfl

/-! ## writeByte -/

@[simp] theorem State.writeByte_v (s : State) (a : Nat) (b : Byte) : (s.writeByte a b).v = s.v := rfl
@[simp] theorem State.writeByte_i (s : State) (a : Nat) (b : Byte) : (s.writeByte a b).i = s.i := rfl
@[simp] theorem State.writeByte_pc (s : State) (a : Nat) (b : Byte) : (s.writeByte a b).pc = s.pc := rfl
@[simp] theorem State.writeByte_stack (s : State) (a : Nat) (b : Byte) : (s.writeByte a b).stack = s.stack := rfl
@[simp] theorem State.writeByte_mem (s : State) (a : Nat) (b : Byte) : (s.writeByte a b).mem = s.mem.write a b := rfl
@[simp] theorem State.writeByte_disp (s : State) (a : Nat) (b : Byte) : (s.writeByte a b).disp = s.disp := rfl
@[simp] theorem State.writeByte_needsRedraw (s : State) (a : Nat) (b : Byte) : (s.writeByte a b).needsRedraw = s.needsRedraw := rfl
@[simp] theorem State.writeByte_dt (s : State) (a : Nat) (b : Byte) : (s.writeByte a b).dt = s.dt := rfl
@[simp] theorem State.writeByte_st (s : State) (a : Nat) (b : Byte) : (s.writeByte a b).st = s.st := rfl
@[simp] theorem State.writeByte_keyCur (s : State) (a : Nat) (b : Byte) : (s.writeByte a b).keyCur = s.keyCur := rfl
@[simp] theorem State.writeByte_keyPrev (s : State) (a : Nat) (b : Byte) : (s.writeByte a b).keyPrev = s.keyPrev := rfl
@[simp] theorem State.writeByte_keyTransition (s : State) (a : Nat) (b : Byte) : (s.writeByte a b).keyTransition = s.keyTransition := rfl
@[simp] theorem State.writeByte_fault (s : State) (a : Nat) (b : Byte) : (s.writeByte a b).fault = s.fault := rfl
@[simp] theorem State.writeByte_rndArg (s : State) (a : Nat) (b : Byte) : (s.writeByte a b).rndArg = s.rndArg := rfl
@[simp] theorem State.writeByte_draws (s : State) (a : Nat) (b : Byte) : (s.writeByte a b).draws = s.draws := rfl
@[simp] theorem State.writeByte_stackDepth (s : State) (a : Nat) (b : Byte) : (s.writeByte a b).stackDepth = s.stackDepth := rfl
@[simp] theorem State.writeByte_reg (s : State) (a : Nat) (b : Byte) (q : Reg) : (s.writeByte a b).reg q = s.reg q := rfl
@[simp] theorem State.writeByte_pixel (s : State) (a : Nat) (b : Byte) (px py : Nat) : (s.writeByte a b).pixel px py = s.pixel px py := rfl

/-! ## clearDisplay -/

@[simp] theorem State.clearDisplay_v (s : State) : s.clearDisplay.v = s.v := rfl
@[simp] theorem State.clearDisplay_i (s : State) : s.clearDisplay.i = s.i := rfl
@[simp] theorem State.clearDisplay_pc (s : State) : s.clearDisplay.pc = s.pc := rfl
@[simp] theorem State.clearDisplay_stack (s : State) : s.clearDisplay.stack = s.stack := rfl
@[simp] theorem State.clearDisplay_mem (s : State) : s.clearDisplay.mem = s.mem := rfl
@[simp] theorem State.clearDisplay_disp (s : State) : s.clearDisplay.disp = Display.clear := rfl
@[simp] theorem State.clearDisplay_needsRedraw (s : State) : s.clearDisplay.needsRedraw = true := rfl
@[simp] theorem State.clearDisplay_dt (s : State) : s.clearDisplay.dt = s.dt := rfl
@[simp] theorem State.clearDisplay_st (s : State) : s.clearDisplay.st = s.st := rfl
@[simp] theorem State.clearDisplay_keyCur (s : State) : s.clearDisplay.keyCur = s.keyCur := rfl
@[simp] theorem State.clearDisplay_keyPrev (s : State) : s.clearDisplay.keyPrev = s.keyPrev := rfl
@[simp] theorem State.clearDisplay_keyTransition (s : State) : s.clearDisplay.keyTransition = s.keyTransition := rfl
@[simp] theorem State.clearDisplay_fault (s : State) : s.clearDisplay.fault = s.fault := rfl
@[simp] theorem State.clearDisplay_rndArg (s : State) : s.clearDisplay.rndArg = s.rndArg := rfl
@[simp] theorem State.clearDisplay_draws (s : State) : s.clearDisplay.draws = s.draws := rfl
@[simp] theorem State.clearDisplay_stackDepth (s : State) : s.clearDisplay.stackDepth = s.stackDepth := rfl
@[simp] theorem State.clearDisplay_reg (s : State) (q : Reg) : s.clearDisplay.reg q = s.reg q := rfl
@[simp] theorem State.clearDisplay_readByte (s : State) (c : Nat) : s.clearDisplay.readByte c = s.readByte c := rfl

/-! ## tick -/

@[simp] theorem State.tick_v (s : State) : s.tick.v = s.v := rfl
@[simp] theorem State.tick_i (s : State) : s.tick.i = s.i := rfl
@[simp] theorem State.tick_pc (s : State) : s.tick.pc = s.pc := rfl
@[simp] theorem State.tick_stack (s : State) : s.tick.stack = s.stack := rfl
@[simp] theorem State.tick_mem (s : State) : s.tick.mem = s.mem := rfl
@[simp] theorem State.tick_disp (s : State) : s.tick.disp = s.disp := rfl
@[simp] theorem State.tick_needsRedraw (s : State) : s.tick.needsRedraw = s.needsRedraw := rfl
@[simp] theorem State.tick_dt (s : State) : s.tick.dt = countDown s.dt := rfl
@[simp] theorem State.tick_st (s : State) : s.tick.st = countDown s.st := rfl
@[simp] theorem State.tick_keyCur (s : State) : s.tick.keyCur = s.keyCur := rfl
@[simp] theorem State.tick_keyPrev (s : State) : s.tick.keyPrev = s.keyPrev := rfl
@[simp] theorem State.tick_keyTransition (s : State) : s.tick.keyTransition = s.keyTransition := rfl
@[simp] theorem State.tick_fault (s : State) : s.tick.fault = s.fault := rfl
@[simp] theorem State.tick_rndArg (s : State) : s.tick.rndArg = s.rndArg := rfl
@[simp] theorem State.tick_draws (s : State) : s.tick.draws = s.draws := rfl
@[simp] theorem State.tick_stackDepth (s : State) : s.tick.stackDepth = s.stackDepth := rfl
@[simp] theorem State.tick_reg (s : State) (q : Reg) : s.tick.reg q = s.reg q := rfl
@[simp] theorem State.tick_readByte (s : State) (c : Nat) : s.tick.readByte c = s.readByte c := rfl
@[simp] theorem State.tick_pixel (s : State) (px py : Nat) : s.tick.pixel px py = s.pixel px py := rfl

/-! ## keyPress -/

@[simp] theorem State.keyPress_v (s : State) (k : Key) : (s.keyPress k).v = s.v := rfl
@[simp] theorem State.keyPress_i (s : State) (k : Key) : (s.keyPress k).i = s.i := rfl
@[simp] theorem State.keyPress_pc (s : State) (k : Key) : (s.keyPress k).pc = s.pc := rfl
@[simp] theorem State.keyPress_stack (s : State) (k : Key) : (s.keyPress k).stack = s.stack := rfl
@[simp] theorem State.keyPress_mem (s : State) (k : Key) : (s.keyPress k).mem = s.mem := rfl
@[simp] theorem State.keyPress_disp (s : State) (k : Key) : (s.keyPress k).disp = s.disp := rfl
@[simp] theorem State.keyPress_needsRedraw (s : State) (k : Key) : (s.keyPress k).needsRedraw = s.needsRedraw := rfl
@[simp] theorem State.keyPress_dt (s : State) (k : Key) : (s.keyPress k).dt = s.dt := rfl
@[simp] theorem State.keyPress_st (s : State) (k : Key) : (s.keyPress k).st = s.st := rfl
@[simp] theorem State.keyPress_keyCur (s : State) (k : Key) : (s.keyPress k).keyCur = k := rfl
@[simp] theorem State.keyPress_keyPrev (s : State) (k : Key) : (s.keyPress k).keyPrev = s.keyCur := rfl
@[simp] theorem State.keyPress_keyTransition (s : State) (k : Key) : (s.keyPress k).keyTransition = (s.keyTransition || k != s.keyCur) := rfl
@[simp] theorem State.keyPress_fault (s : State) (k : Key) : (s.keyPress k).fault = s.fault := rfl
@[simp] theorem State.keyPress_rndArg (s : State) (k : Key) : (s.keyPress k).rndArg = s.rndArg := rfl
@[simp] theorem State.keyPress_draws (s : State) (k : Key) : (s.keyPress k).draws = s.draws := rfl
@[simp] theorem State.keyPress_stackDepth (s : State) (k : Key) : (s.keyPress k).stackDepth = s.stackDepth := rfl
@[simp] theorem State.keyPress_reg (s : State) (k : Key) (q : Reg) : (s.keyPress k).reg q = s.reg q := rfl
@[simp] theorem State.keyPress_readByte (s : State) (k : Key) (c : Nat) : (s.keyPress k).readByte c = s.readByte c := rfl
@[simp] theorem State.keyPress_pixel (s : State) (k : Key) (px py : Nat) : (s.keyPress k).pixel px py = s.pixel px py := rfl

/-! ## clearKeyTransition -/

@[simp] theorem State.clearKeyTransition_v (s : State) : s.clearKeyTransition.v = s.v := rfl
@[simp] theorem State.clearKeyTransition_i (s : State) : s.clearKeyTransition.i = s.i := rfl
@[simp] theorem State.clearKeyTransition_pc (s : State) : s.clearKeyTransition.pc = s.pc := rfl
@[simp] theorem State.clearKeyTransition_stack (s : State) : s.clearKeyTransition.stack = s.stack := rfl
@[simp] theorem State.clearKeyTransition_mem (s : State) : s.clearKeyTransition.mem = s.mem := rfl
@[simp] theorem State.clearKeyTransition_disp (s : State) : s.clearKeyTransition.disp = s.disp := rfl
@[simp] theorem State.clearKeyTransition_needsRedraw (s : State) : s.clearKeyTransition.needsRedraw = s.needsRedraw := rfl
@[simp] theorem State.clearKeyTransition_dt (s : State) : s.clearKeyTransition.dt = s.dt := rfl
@[simp] theorem State.clearKeyTransition_st (s : State) : s.clearKeyTransition.st = s.st := rfl
@[simp] theorem State.clearKeyTransition_keyCur (s : State) : s.clearKeyTransition.keyCur = s.keyCur := rfl
@[simp] theorem State.clearKeyTransition_keyPrev (s : State) : s.clearKeyTransition.keyPrev = s.keyPrev := rfl
@[simp] theorem State.clearKeyTransition_keyTransition (s : State) : s.clearKeyTransition.keyTransition = false := rfl
@[simp] theorem State.clearKeyTransition_fault (s : State) : s.clearKeyTransition.fault = s.fault := rfl
@[simp] theorem State.clearKeyTransition_rndArg (s : State) : s.clearKeyTransition.rndArg = s.rndArg := rfl
@[simp] theorem State.clearKeyTransition_draws (s : State) : s.clearKeyTransition.draws = s.draws := rfl
@[simp] theorem State.clearKeyTransition_stackDepth (s : State) : s.clearKeyTransition.stackDepth = s.stackDepth := rfl
@[simp] theorem State.clearKeyTransition_reg (s : State) (q : Reg) : s.clearKeyTransition.reg q = s.reg q := rfl
@[simp] theorem State.clearKeyTransition_readByte (s : State) (c : Nat) : s.clearKeyTransition.readByte c = s.readByte c := rfl
@[simp] theorem State.clearKeyTransition_pixel (s : State) (px py : Nat) : s.clearKeyTransition.pixel px py = s.pixel px py := rfl

/-! ## clearRedraw -/

@[simp] theorem State.clearRedraw_v (s : State) : s.clearRedraw.v = s.v := rfl
@[simp] theorem State.clearRedraw_i (s : State) : s.clearRedraw.i = s.i := rfl
@[simp] theorem State.clearRedraw_pc (s : State) : s.clearRedraw.pc = s.pc := rfl
@[simp] theorem State.clearRedraw_stack (s : State) : s.clearRedraw.stack = s.stack := rfl
@[simp] theorem State.clearRedraw_mem (s : State) : s.clearRedraw.mem = s.mem := rfl
@[simp] theorem State.clearRedraw_disp (s : State) : s.clearRedraw.disp = s.disp := rfl
@[simp] theorem State.clearRedraw_needsRedraw (s : State) : s.clearRedraw.needsRedraw = false := rfl
@[simp] theorem State.clearRedraw_dt (s : State) : s.clearRedraw.dt = s.dt := rfl
@[simp] theorem State.clearRedraw_st (s : State) : s.clearRedraw.st = s.st := rfl
@[simp] theorem State.clearRedraw_keyCur (s : State) : s.clearRedraw.keyCur = s.keyCur := rfl
@[simp] theorem State.clearRedraw_keyPrev (s : State) : s.clearRedraw.keyPrev = s.keyPrev := rfl
@[simp] theorem State.clearRedraw_keyTransition (s : State) : s.clearRedraw.keyTransition = s.keyTransition := rfl
@[simp] theorem State.clearRedraw_fault (s : State) : s.clearRedraw.fault = s.fault := rfl
@[simp] theorem State.clearRedraw_rndArg (s : State) : s.clearRedraw.rndArg = s.rndArg := rfl
@[simp] theorem State.clearRedraw_draws (s : State) : s.clearRedraw.draws = s.draws := rfl
@[simp] theorem State.clearRedraw_stackDepth (s : State) : s.clearRedraw.stackDepth = s.stackDepth := rfl
@[simp] theorem State.clearRedraw_reg (s : State) (q : Reg) : s.clearRedraw.reg q = s.reg q := rfl
@[simp] theorem State.clearRedraw_readByte (s : State) (c : Nat) : s.clearRedraw.readByte c = s.readByte c := rfl
@[simp] theorem State.clearRedraw_pixel (s : State) (px py : Nat) : s.clearRedraw.pixel px py = s.pixel px py := rfl

end Sys2Proof.Machine
end

