-- ==== Sys2Proof/Laws/Memory.lean ====
section
/-! SUPPORT. Memory: a read after a write, the canonical form, and blocks of bytes (spec 20_memory.md R42, R49). -/

namespace Sys2Proof.Machine

theorem Memory.read_insert (m : Memory) (a : Nat) (b : Byte) (c : Nat) :
    (Memory.insert m a b).read c = if c = a then b else m.read c := by
  induction m with
  | nil => simp only [Memory.insert, Memory.read, eq_comm]
  | cons e m ih =>
    obtain ⟨k, u⟩ := e
    unfold Memory.insert
    split
    · simp only [Memory.read, eq_comm]
    · split
      · rename_i h1 h2; subst h2
        by_cases h : c = a
        · simp [Memory.read, h]
        · simp [Memory.read, h, Ne.symm h]
      · rename_i h1 h2
        simp only [Memory.read, ih]
        by_cases h : c = a
        · subst h; simp [Ne.symm h2]
        · simp [h]

theorem Memory.read_erase (m : Memory) (a c : Nat) :
    (Memory.erase m a).read c = if c = a then Memory.unlisted a else m.read c := by
  induction m with
  | nil => by_cases h : c = a <;> simp [Memory.erase, Memory.read, h]
  | cons e m ih =>
    obtain ⟨k, u⟩ := e
    simp only [Memory.erase] at ih ⊢
    by_cases hk : k = a
    · subst hk
      by_cases h : c = k
      · subst h; simpa using ih
      · simpa [Memory.read, h, Ne.symm h] using ih
    · by_cases h : k = c
      · subst h; simp [Memory.read, hk]
      · simpa [Memory.read, h, hk] using ih

/-- A byte reads as what was last written to it, and a write leaves every other byte alone (R49). -/
@[simp] theorem Memory.read_write (m : Memory) (a : Nat) (b : Byte) (c : Nat) :
    (m.write a b).read c = if c = a then b else m.read c := by
  unfold Memory.write
  split
  · rename_i h; rw [Memory.read_erase, h]
  · exact Memory.read_insert m a b c

theorem Memory.mem_insert {m : Memory} {a : Nat} {b : Byte} {e : Host.Cell} (h : e ∈ Memory.insert m a b) :
    e = (a, b) ∨ e ∈ m := by
  induction m with
  | nil => simpa [Memory.insert] using h
  | cons d m ih =>
    obtain ⟨k, u⟩ := d
    unfold Memory.insert at h
    split at h
    · simpa using h
    · split at h
      · rcases List.mem_cons.1 h with h | h
        · exact .inl h
        · exact .inr (List.mem_cons_of_mem _ h)
      · rcases List.mem_cons.1 h with h | h
        · exact .inr (by simp [h])
        · rcases ih h with h | h
          · exact .inl h
          · exact .inr (List.mem_cons_of_mem _ h)

theorem Memory.insert_rising {m : Memory} (h : m.Pairwise (fun c d => c.1 < d.1)) (a : Nat) (b : Byte) :
    (Memory.insert m a b).Pairwise (fun c d => c.1 < d.1) := by
  induction m with
  | nil => simp [Memory.insert]
  | cons e m ih =>
    obtain ⟨k, u⟩ := e
    obtain ⟨hk, hm⟩ := List.pairwise_cons.1 h
    unfold Memory.insert
    split
    · rename_i hlt
      refine List.pairwise_cons.2 ⟨fun d hd => ?_, h⟩
      rcases List.mem_cons.1 hd with hd | hd
      · simpa [hd] using hlt
      · exact Nat.lt_trans hlt (hk d hd)
    · split
      · rename_i heq; subst heq
        exact List.pairwise_cons.2 ⟨fun d hd => hk d hd, hm⟩
      · rename_i h1 h2
        refine List.pairwise_cons.2 ⟨fun d hd => ?_, ih hm⟩
        rcases Memory.mem_insert hd with hd | hd
        · subst hd; simp only; omega
        · exact hk d hd

/-- Every write inside memory keeps the canonical form. -/
theorem Memory.wf_write {m : Memory} (h : m.wf) {a : Nat} (ha : a < Config.memSize) (b : Byte) : (m.write a b).wf := by
  unfold Memory.write
  split
  · exact ⟨h.1.filter _, fun c hc => h.2 c (List.mem_filter.1 hc).1⟩
  · rename_i hb
    refine ⟨Memory.insert_rising h.1 a b, fun c hc => ?_⟩
    rcases Memory.mem_insert hc with hc | hc
    · subst hc; exact ⟨ha, hb⟩
    · exact h.2 c hc

/-- The memory after reset is in canonical form. -/
theorem Memory.wf_reset : State.reset.mem.wf := ⟨List.Pairwise.nil, fun _ h => absurd h List.not_mem_nil⟩

@[simp] theorem State.readByte_writeByte (s : State) (a : Nat) (b : Byte) (c : Nat) :
    (s.writeByte a b).readByte c = if c = a then b else s.readByte c := Memory.read_write s.mem a b c

/-- A block of bytes lands on consecutive addresses and nowhere else. -/
theorem State.readByte_writeBytes (s : State) (a : Nat) (bs : List Byte) (c : Nat) :
    (s.writeBytes a bs).readByte c = if a ≤ c then bs.getD (c - a) (s.readByte c) else s.readByte c := by
  induction bs generalizing s a with
  | nil => simp [State.writeBytes]
  | cons b bs ih =>
    simp only [State.writeBytes, ih, State.readByte_writeByte]
    rcases Nat.lt_trichotomy c a with h | h | h
    · simp [show ¬ a ≤ c by omega, show ¬ a + 1 ≤ c by omega, show c ≠ a by omega]
    · subst h; simp
    · obtain ⟨d, rfl⟩ := Nat.exists_eq_add_of_lt h
      simp [show ¬ a + d + 1 = a by omega, show a ≤ a + d + 1 by omega, show a + d + 1 - a = d + 1 by omega, show a + d + 1 - (a + 1) = d by omega]

/-- A block inside memory keeps the canonical form. -/
theorem State.wf_writeBytes {s : State} (h : s.mem.wf) {a : Nat} {bs : List Byte}
    (ha : a + bs.length ≤ Config.memSize) : (s.writeBytes a bs).mem.wf := by
  induction bs generalizing s a with
  | nil => exact h
  | cons b bs ih =>
    simp only [List.length_cons] at ha
    exact ih (s := s.writeByte a b) (Memory.wf_write h (by omega) b) (by omega)

/-- A block of bytes changes nothing but memory. -/
theorem State.writeBytes_eq (s : State) (a : Nat) (bs : List Byte) :
    s.writeBytes a bs = { s with mem := (s.writeBytes a bs).mem } := by
  induction bs generalizing s a with
  | nil => rfl
  | cons b bs ih => exact (ih (s.writeByte a b) (a + 1)).trans rfl

@[simp] theorem State.writeBytes_v (s : State) (a : Nat) (bs : List Byte) : (s.writeBytes a bs).v = s.v := by
  rw [State.writeBytes_eq]
@[simp] theorem State.writeBytes_i (s : State) (a : Nat) (bs : List Byte) : (s.writeBytes a bs).i = s.i := by
  rw [State.writeBytes_eq]
@[simp] theorem State.writeBytes_pc (s : State) (a : Nat) (bs : List Byte) : (s.writeBytes a bs).pc = s.pc := by
  rw [State.writeBytes_eq]
@[simp] theorem State.writeBytes_stack (s : State) (a : Nat) (bs : List Byte) : (s.writeBytes a bs).stack = s.stack := by
  rw [State.writeBytes_eq]
@[simp] theorem State.writeBytes_disp (s : State) (a : Nat) (bs : List Byte) : (s.writeBytes a bs).disp = s.disp := by
  rw [State.writeBytes_eq]
@[simp] theorem State.writeBytes_needsRedraw (s : State) (a : Nat) (bs : List Byte) : (s.writeBytes a bs).needsRedraw = s.needsRedraw := by
  rw [State.writeBytes_eq]
@[simp] theorem State.writeBytes_dt (s : State) (a : Nat) (bs : List Byte) : (s.writeBytes a bs).dt = s.dt := by
  rw [State.writeBytes_eq]
@[simp] theorem State.writeBytes_st (s : State) (a : Nat) (bs : List Byte) : (s.writeBytes a bs).st = s.st := by
  rw [State.writeBytes_eq]
@[simp] theorem State.writeBytes_keyCur (s : State) (a : Nat) (bs : List Byte) : (s.writeBytes a bs).keyCur = s.keyCur := by
  rw [State.writeBytes_eq]
@[simp] theorem State.writeBytes_keyPrev (s : State) (a : Nat) (bs : List Byte) : (s.writeBytes a bs).keyPrev = s.keyPrev := by
  rw [State.writeBytes_eq]
@[simp] theorem State.writeBytes_keyTransition (s : State) (a : Nat) (bs : List Byte) : (s.writeBytes a bs).keyTransition = s.keyTransition := by
  rw [State.writeBytes_eq]
@[simp] theorem State.writeBytes_fault (s : State) (a : Nat) (bs : List Byte) : (s.writeBytes a bs).fault = s.fault := by
  rw [State.writeBytes_eq]
@[simp] theorem State.writeBytes_rndArg (s : State) (a : Nat) (bs : List Byte) : (s.writeBytes a bs).rndArg = s.rndArg := by
  rw [State.writeBytes_eq]
@[simp] theorem State.writeBytes_draws (s : State) (a : Nat) (bs : List Byte) : (s.writeBytes a bs).draws = s.draws := by
  rw [State.writeBytes_eq]
@[simp] theorem State.writeBytes_stackDepth (s : State) (a : Nat) (bs : List Byte) : (s.writeBytes a bs).stackDepth = s.stackDepth := by
  rw [State.writeBytes_eq]
@[simp] theorem State.writeBytes_reg (s : State) (a : Nat) (bs : List Byte) (q : Reg) :
    (s.writeBytes a bs).reg q = s.reg q := by
  rw [State.writeBytes_eq]; rfl
@[simp] theorem State.writeBytes_pixel (s : State) (a : Nat) (bs : List Byte) (px py : Nat) :
    (s.writeBytes a bs).pixel px py = s.pixel px py := by
  rw [State.writeBytes_eq]; rfl

end Sys2Proof.Machine
end

