-- ==== Sys2Proof/Laws/Registers.lean ====
section
/-! SUPPORT. Registers, skips, flags and the random byte (spec 10_state.md R11, R12; 42_family_8_alu.md R100). -/

namespace Sys2Proof.Machine

/-- A register reads as what was last written to it, and a write leaves the others alone (R11). -/
@[simp] theorem State.reg_setReg (s : State) (r q : Reg) (b : Byte) :
    (s.setReg r b).reg q = if q = r then b else s.reg q := by
  simp [State.reg, State.setReg, Vector.getElem_set, BitVec.toNat_inj, eq_comm]

/-- The flag is the write that remains (R100). -/
theorem State.reg_setRegFlag (s : State) (x q : Reg) (result : Byte) (flag : Bool) :
    (s.setRegFlag x result flag).reg q = if q = VF then flagByte flag else if q = x then result else s.reg q := by
  simp [State.setRegFlag, State.setFlag]

/-- Loading a list of registers from `V[i]` on gives each its byte and leaves the others alone (R149). -/
theorem State.reg_setRegsFrom (s : State) (i : Nat) (bs : List Byte) (h : i + bs.length ≤ 16) (q : Reg) :
    (s.setRegsFrom i bs).reg q = if i ≤ q.toNat then bs.getD (q.toNat - i) (s.reg q) else s.reg q := by
  induction bs generalizing s i with
  | nil => simp [State.setRegsFrom]
  | cons b bs ih =>
    simp only [List.length_cons] at h
    have hq : q = BitVec.ofNat 4 i ↔ q.toNat = i := by
      rw [← BitVec.toNat_inj, BitVec.toNat_ofNat, Nat.mod_eq_of_lt (by omega)]
    simp only [State.setRegsFrom, ih _ _ (show i + 1 + bs.length ≤ 16 by omega), State.reg_setReg, hq]
    rcases Nat.lt_trichotomy q.toNat i with h1 | h1 | h1
    · simp [show ¬ i ≤ q.toNat by omega, show ¬ i + 1 ≤ q.toNat by omega, show q.toNat ≠ i by omega]
    · simp [h1]
    · obtain ⟨d, hd⟩ := Nat.exists_eq_add_of_lt h1
      simp [hd, show ¬ i + d + 1 = i by omega, show i ≤ i + d + 1 by omega, show i + d + 1 - i = d + 1 by omega, show i + d + 1 - (i + 1) = d by omega]

/-- Loading registers changes nothing but registers. -/
theorem State.setRegsFrom_eq (s : State) (i : Nat) (bs : List Byte) :
    s.setRegsFrom i bs = { s with v := (s.setRegsFrom i bs).v } := by
  induction bs generalizing s i with
  | nil => rfl
  | cons b bs ih => exact (ih (s.setReg (BitVec.ofNat 4 i) b) (i + 1)).trans rfl

/-- A skip is two bytes of pc and nothing else (R14). -/
theorem State.skipIf_eq (s : State) (c : Bool) : s.skipIf c = s.setPc (if c then s.pc + 2#16 else s.pc) := by
  cases c <;> rfl

/-- Either the argument is used up or the count of draws goes on; nothing else changes. -/
theorem State.consumeRandom_cases (s : State) :
    (∃ b, s.rndArg = some b ∧ s.randomByte = b ∧ s.consumeRandom = { s with rndArg := none }) ∨
    (s.rndArg = none ∧ s.randomByte = Config.freeRandom s.draws ∧
      s.consumeRandom = { s with draws := s.draws + 1 }) := by
  unfold State.randomByte State.consumeRandom
  cases h : s.rndArg <;> simp

@[simp] theorem State.setRegFlag_i (s : State) (x : Reg) (b : Byte) (c : Bool) : (s.setRegFlag x b c).i = s.i := rfl
@[simp] theorem State.setFlag_i (s : State) (c : Bool) : (s.setFlag c).i = s.i := rfl
@[simp] theorem State.setRegsFrom_i (s : State) (i : Nat) (bs : List Byte) : (s.setRegsFrom i bs).i = s.i := by
  rw [State.setRegsFrom_eq]
@[simp] theorem State.setRegFlag_pc (s : State) (x : Reg) (b : Byte) (c : Bool) : (s.setRegFlag x b c).pc = s.pc := rfl
@[simp] theorem State.setFlag_pc (s : State) (c : Bool) : (s.setFlag c).pc = s.pc := rfl
@[simp] theorem State.setRegsFrom_pc (s : State) (i : Nat) (bs : List Byte) : (s.setRegsFrom i bs).pc = s.pc := by
  rw [State.setRegsFrom_eq]
@[simp] theorem State.setRegFlag_stack (s : State) (x : Reg) (b : Byte) (c : Bool) : (s.setRegFlag x b c).stack = s.stack := rfl
@[simp] theorem State.setFlag_stack (s : State) (c : Bool) : (s.setFlag c).stack = s.stack := rfl
@[simp] theorem State.setRegsFrom_stack (s : State) (i : Nat) (bs : List Byte) : (s.setRegsFrom i bs).stack = s.stack := by
  rw [State.setRegsFrom_eq]
@[simp] theorem State.setRegFlag_mem (s : State) (x : Reg) (b : Byte) (c : Bool) : (s.setRegFlag x b c).mem = s.mem := rfl
@[simp] theorem State.setFlag_mem (s : State) (c : Bool) : (s.setFlag c).mem = s.mem := rfl
@[simp] theorem State.setRegsFrom_mem (s : State) (i : Nat) (bs : List Byte) : (s.setRegsFrom i bs).mem = s.mem := by
  rw [State.setRegsFrom_eq]
@[simp] theorem State.setRegFlag_disp (s : State) (x : Reg) (b : Byte) (c : Bool) : (s.setRegFlag x b c).disp = s.disp := rfl
@[simp] theorem State.setFlag_disp (s : State) (c : Bool) : (s.setFlag c).disp = s.disp := rfl
@[simp] theorem State.setRegsFrom_disp (s : State) (i : Nat) (bs : List Byte) : (s.setRegsFrom i bs).disp = s.disp := by
  rw [State.setRegsFrom_eq]
@[simp] theorem State.setRegFlag_needsRedraw (s : State) (x : Reg) (b : Byte) (c : Bool) : (s.setRegFlag x b c).needsRedraw = s.needsRedraw := rfl
@[simp] theorem State.setFlag_needsRedraw (s : State) (c : Bool) : (s.setFlag c).needsRedraw = s.needsRedraw := rfl
@[simp] theorem State.setRegsFrom_needsRedraw (s : State) (i : Nat) (bs : List Byte) : (s.setRegsFrom i bs).needsRedraw = s.needsRedraw := by
  rw [State.setRegsFrom_eq]
@[simp] theorem State.setRegFlag_dt (s : State) (x : Reg) (b : Byte) (c : Bool) : (s.setRegFlag x b c).dt = s.dt := rfl
@[simp] theorem State.setFlag_dt (s : State) (c : Bool) : (s.setFlag c).dt = s.dt := rfl
@[simp] theorem State.setRegsFrom_dt (s : State) (i : Nat) (bs : List Byte) : (s.setRegsFrom i bs).dt = s.dt := by
  rw [State.setRegsFrom_eq]
@[simp] theorem State.setRegFlag_st (s : State) (x : Reg) (b : Byte) (c : Bool) : (s.setRegFlag x b c).st = s.st := rfl
@[simp] theorem State.setFlag_st (s : State) (c : Bool) : (s.setFlag c).st = s.st := rfl
@[simp] theorem State.setRegsFrom_st (s : State) (i : Nat) (bs : List Byte) : (s.setRegsFrom i bs).st = s.st := by
  rw [State.setRegsFrom_eq]
@[simp] theorem State.setRegFlag_keyCur (s : State) (x : Reg) (b : Byte) (c : Bool) : (s.setRegFlag x b c).keyCur = s.keyCur := rfl
@[simp] theorem State.setFlag_keyCur (s : State) (c : Bool) : (s.setFlag c).keyCur = s.keyCur := rfl
@[simp] theorem State.setRegsFrom_keyCur (s : State) (i : Nat) (bs : List Byte) : (s.setRegsFrom i bs).keyCur = s.keyCur := by
  rw [State.setRegsFrom_eq]
@[simp] theorem State.setRegFlag_keyPrev (s : State) (x : Reg) (b : Byte) (c : Bool) : (s.setRegFlag x b c).keyPrev = s.keyPrev := rfl
@[simp] theorem State.setFlag_keyPrev (s : State) (c : Bool) : (s.setFlag c).keyPrev = s.keyPrev := rfl
@[simp] theorem State.setRegsFrom_keyPrev (s : State) (i : Nat) (bs : List Byte) : (s.setRegsFrom i bs).keyPrev = s.keyPrev := by
  rw [State.setRegsFrom_eq]
@[simp] theorem State.setRegFlag_keyTransition (s : State) (x : Reg) (b : Byte) (c : Bool) : (s.setRegFlag x b c).keyTransition = s.keyTransition := rfl
@[simp] theorem State.setFlag_keyTransition (s : State) (c : Bool) : (s.setFlag c).keyTransition = s.keyTransition := rfl
@[simp] theorem State.setRegsFrom_keyTransition (s : State) (i : Nat) (bs : List Byte) : (s.setRegsFrom i bs).keyTransition = s.keyTransition := by
  rw [State.setRegsFrom_eq]
@[simp] theorem State.setRegFlag_fault (s : State) (x : Reg) (b : Byte) (c : Bool) : (s.setRegFlag x b c).fault = s.fault := rfl
@[simp] theorem State.setFlag_fault (s : State) (c : Bool) : (s.setFlag c).fault = s.fault := rfl
@[simp] theorem State.setRegsFrom_fault (s : State) (i : Nat) (bs : List Byte) : (s.setRegsFrom i bs).fault = s.fault := by
  rw [State.setRegsFrom_eq]
@[simp] theorem State.setRegFlag_rndArg (s : State) (x : Reg) (b : Byte) (c : Bool) : (s.setRegFlag x b c).rndArg = s.rndArg := rfl
@[simp] theorem State.setFlag_rndArg (s : State) (c : Bool) : (s.setFlag c).rndArg = s.rndArg := rfl
@[simp] theorem State.setRegsFrom_rndArg (s : State) (i : Nat) (bs : List Byte) : (s.setRegsFrom i bs).rndArg = s.rndArg := by
  rw [State.setRegsFrom_eq]
@[simp] theorem State.setRegFlag_draws (s : State) (x : Reg) (b : Byte) (c : Bool) : (s.setRegFlag x b c).draws = s.draws := rfl
@[simp] theorem State.setRegFlag_stackDepth (s : State) (x : Reg) (b : Byte) (c : Bool) : (s.setRegFlag x b c).stackDepth = s.stackDepth := rfl
@[simp] theorem State.setFlag_draws (s : State) (c : Bool) : (s.setFlag c).draws = s.draws := rfl
@[simp] theorem State.setFlag_stackDepth (s : State) (c : Bool) : (s.setFlag c).stackDepth = s.stackDepth := rfl
@[simp] theorem State.setRegsFrom_draws (s : State) (i : Nat) (bs : List Byte) : (s.setRegsFrom i bs).draws = s.draws := by
  rw [State.setRegsFrom_eq]
@[simp] theorem State.setRegsFrom_stackDepth (s : State) (i : Nat) (bs : List Byte) : (s.setRegsFrom i bs).stackDepth = s.stackDepth := by
  rw [State.setRegsFrom_eq]
@[simp] theorem State.setRegFlag_readByte (s : State) (x : Reg) (b : Byte) (c : Bool) (a : Nat) :
    (s.setRegFlag x b c).readByte a = s.readByte a := rfl
@[simp] theorem State.setRegFlag_pixel (s : State) (x : Reg) (b : Byte) (c : Bool) (px py : Nat) :
    (s.setRegFlag x b c).pixel px py = s.pixel px py := rfl
@[simp] theorem State.setFlag_readByte (s : State) (c : Bool) (a : Nat) : (s.setFlag c).readByte a = s.readByte a := rfl
@[simp] theorem State.setFlag_pixel (s : State) (c : Bool) (px py : Nat) : (s.setFlag c).pixel px py = s.pixel px py := rfl
@[simp] theorem State.setFlag_reg (s : State) (c : Bool) (q : Reg) :
    (s.setFlag c).reg q = if q = VF then flagByte c else s.reg q := State.reg_setReg s VF q _
@[simp] theorem State.setRegsFrom_readByte (s : State) (i : Nat) (bs : List Byte) (a : Nat) :
    (s.setRegsFrom i bs).readByte a = s.readByte a := by
  rw [State.setRegsFrom_eq]; rfl
@[simp] theorem State.setRegsFrom_pixel (s : State) (i : Nat) (bs : List Byte) (px py : Nat) :
    (s.setRegsFrom i bs).pixel px py = s.pixel px py := by
  rw [State.setRegsFrom_eq]; rfl

@[simp] theorem State.consumeRandom_v (s : State) : s.consumeRandom.v = s.v := by
  unfold State.consumeRandom; split <;> rfl
@[simp] theorem State.consumeRandom_i (s : State) : s.consumeRandom.i = s.i := by
  unfold State.consumeRandom; split <;> rfl
@[simp] theorem State.consumeRandom_pc (s : State) : s.consumeRandom.pc = s.pc := by
  unfold State.consumeRandom; split <;> rfl
@[simp] theorem State.consumeRandom_stack (s : State) : s.consumeRandom.stack = s.stack := by
  unfold State.consumeRandom; split <;> rfl
@[simp] theorem State.consumeRandom_mem (s : State) : s.consumeRandom.mem = s.mem := by
  unfold State.consumeRandom; split <;> rfl
@[simp] theorem State.consumeRandom_disp (s : State) : s.consumeRandom.disp = s.disp := by
  unfold State.consumeRandom; split <;> rfl
@[simp] theorem State.consumeRandom_needsRedraw (s : State) : s.consumeRandom.needsRedraw = s.needsRedraw := by
  unfold State.consumeRandom; split <;> rfl
@[simp] theorem State.consumeRandom_dt (s : State) : s.consumeRandom.dt = s.dt := by
  unfold State.consumeRandom; split <;> rfl
@[simp] theorem State.consumeRandom_st (s : State) : s.consumeRandom.st = s.st := by
  unfold State.consumeRandom; split <;> rfl
@[simp] theorem State.consumeRandom_keyCur (s : State) : s.consumeRandom.keyCur = s.keyCur := by
  unfold State.consumeRandom; split <;> rfl
@[simp] theorem State.consumeRandom_keyPrev (s : State) : s.consumeRandom.keyPrev = s.keyPrev := by
  unfold State.consumeRandom; split <;> rfl
@[simp] theorem State.consumeRandom_keyTransition (s : State) : s.consumeRandom.keyTransition = s.keyTransition := by
  unfold State.consumeRandom; split <;> rfl
@[simp] theorem State.consumeRandom_fault (s : State) : s.consumeRandom.fault = s.fault := by
  unfold State.consumeRandom; split <;> rfl
@[simp] theorem State.consumeRandom_stackDepth (s : State) : s.consumeRandom.stackDepth = s.stackDepth := by
  unfold State.consumeRandom; split <;> rfl
@[simp] theorem State.consumeRandom_reg (s : State) (q : Reg) : s.consumeRandom.reg q = s.reg q := by
  unfold State.consumeRandom; split <;> rfl
@[simp] theorem State.consumeRandom_readByte (s : State) (a : Nat) : s.consumeRandom.readByte a = s.readByte a := by
  unfold State.consumeRandom; split <;> rfl
@[simp] theorem State.consumeRandom_pixel (s : State) (px py : Nat) : s.consumeRandom.pixel px py = s.pixel px py := by
  unfold State.consumeRandom; split <;> rfl

end Sys2Proof.Machine
end

