-- ==== Sys2Proof/Laws/Display.lean ====
section
/-! SUPPORT. The display: one pixel, one sprite row, a whole sprite (spec 44_family_D_draw.md R126 to R128). -/

namespace Sys2Proof.Machine

/-- A flip turns its own pixel over and leaves every other one alone (R127). -/
theorem Display.get_flip (d : Display) {px py : Nat} (hx : px < Config.dispW) (hy : py < Config.dispH) (qx qy : Nat) :
    Display.get (Display.flip d px py) qx qy =
      (Display.get d qx qy ^^ (decide (qx = px) && decide (qy = py))) := by
  unfold Display.get Display.flip
  rw [dif_pos hy]
  by_cases h : qy = py
  · subst h
    simp only [Vector.getElem?_set_self hy, Vector.getElem?_eq_getElem hy, Option.getD_some, BitVec.getLsbD_xor]
    by_cases h2 : qx = px
    · subst h2; simp [hx]
    · have : (1#Config.dispW <<< px).getLsbD qx = false := by
        simp only [BitVec.getLsbD_shiftLeft, BitVec.getLsbD_one]
        rcases Nat.lt_or_ge qx px with h3 | h3
        · simp [h3]
        · simp [show ¬ qx - px = 0 by omega]
      simp [this, h2]
  · rw [Vector.getElem?_set_ne _ (Ne.symm h)]
    simp [h]

@[simp] theorem Display.get_clear (px py : Nat) : Display.get Display.clear px py = false := by
  unfold Display.get Display.clear
  rcases Nat.lt_or_ge py Config.dispH with h | h
  · simp [h]
  · simp [show ¬ py < 64 from Nat.not_lt.2 h]

@[simp] theorem State.pixel_clearDisplay (s : State) (px py : Nat) : s.clearDisplay.pixel px py = false :=
  Display.get_clear px py

theorem spriteColumn_eq {x0 px c : Nat} (hx : x0 < Config.dispW) (hp : px < Config.dispW) (hc : c < 8) :
    px = (x0 + c) % Config.dispW ↔ spriteColumn x0 px = c := by
  simp only [spriteColumn, Config.dispW] at *; omega

/-- Drawing touches registers, pixels and the dirty flag only. -/
structure DrawFrame (s t : State) : Prop where
  rest : t = { s with v := t.v, disp := t.disp, needsRedraw := t.needsRedraw }

theorem DrawFrame.refl (s : State) : DrawFrame s s := ⟨rfl⟩

theorem DrawFrame.trans {s t u : State} (h : DrawFrame s t) (k : DrawFrame t u) : DrawFrame s u :=
  ⟨by rw [k.rest, h.rest]⟩

theorem drawColumn_frame (b : Byte) (x0 py : Nat) (s : State) (c : Nat) : DrawFrame s (drawColumn b x0 py s c) := by
  refine ⟨?_⟩
  unfold drawColumn
  split
  · simp only []
    split <;> rfl
  · rfl

/-- The state one flip leaves (R127). -/
theorem State.blitPixel_eq (s : State) (px py : Nat) :
    s.blitPixel px py = (s.pixel px py, { s with disp := Display.flip s.disp px py, needsRedraw := true }) := rfl

/-- A column flips its pixel exactly when its sprite bit is 1. -/
theorem drawColumn_pixel (b : Byte) (x0 : Nat) {py : Nat} (hy : py < Config.dispH) (s : State) (c qx qy : Nat) :
    (drawColumn b x0 py s c).pixel qx qy =
      (s.pixel qx qy ^^ (decide (qx = (x0 + c) % Config.dispW) && decide (qy = py) && spriteBit b c)) := by
  have hcol : (x0 + c) % Config.dispW < Config.dispW := Nat.mod_lt _ (by decide)
  unfold drawColumn
  cases hb : spriteBit b c
  · simp
  · rw [Bool.and_true, if_pos rfl]
    refine Eq.trans ?_ (Display.get_flip s.disp hcol hy qx qy)
    cases hp : (s.blitPixel ((x0 + c) % Config.dispW) py).1 <;> simp only [hp] <;> rfl

/-- A column sets `V[0xF]` exactly on a collision. -/
theorem drawColumn_reg (b : Byte) (x0 py : Nat) (s : State) (c : Nat) (q : Reg) :
    (drawColumn b x0 py s c).reg q =
      if q = VF ∧ spriteBit b c = true ∧ s.pixel ((x0 + c) % Config.dispW) py = true then 1#8 else s.reg q := by
  unfold drawColumn
  cases hb : spriteBit b c
  · simp
  · rw [if_pos rfl]
    cases hp : s.pixel ((x0 + c) % Config.dispW) py
    · have h1 : (s.blitPixel ((x0 + c) % Config.dispW) py).1 = false := hp
      simp only [h1]; simp; rfl
    · have h1 : (s.blitPixel ((x0 + c) % Config.dispW) py).1 = true := hp
      simp only [h1]; simp [flagByte]; rfl

/-- A column marks the display dirty exactly when its sprite bit is 1. -/
theorem drawColumn_dirty (b : Byte) (x0 py : Nat) (s : State) (c : Nat) :
    (drawColumn b x0 py s c).needsRedraw = (s.needsRedraw || spriteBit b c) := by
  unfold drawColumn
  cases hb : spriteBit b c
  · simp
  · rw [if_pos rfl, Bool.or_true]
    cases hp : (s.blitPixel ((x0 + c) % Config.dispW) py).1 <;> simp only [hp] <;> rfl

/-- What the first `k` columns of a sprite row do. -/
theorem drawColumns_spec (b : Byte) {x0 py : Nat} (hx : x0 < Config.dispW) (hy : py < Config.dispH) (s : State) (k : Nat)
    (hk : k ≤ 8) :
    let t := (List.range k).foldl (drawColumn b x0 py) s
    (∀ qx qy, qx < Config.dispW →
      t.pixel qx qy = (s.pixel qx qy ^^
        (decide (qy = py) && decide (spriteColumn x0 qx < k) && spriteBit b (spriteColumn x0 qx)))) ∧
    (∀ q, t.reg q = if q = VF ∧ (∃ c < k, spriteBit b c ∧ s.pixel ((x0 + c) % Config.dispW) py) then 1#8 else s.reg q) ∧
    (t.needsRedraw = true ↔ s.needsRedraw = true ∨ ∃ c < k, spriteBit b c) ∧
    DrawFrame s t := by
  induction k with
  | zero => simp [DrawFrame.refl]
  | succ k ih =>
    obtain ⟨hpix, hreg, hdirty, hframe⟩ := ih (by omega)
    simp only [List.range_succ, List.foldl_append, List.foldl_cons, List.foldl_nil]
    generalize ht : (List.range k).foldl (drawColumn b x0 py) s = t at hpix hreg hdirty hframe
    have hcol : (x0 + k) % Config.dispW < Config.dispW := Nat.mod_lt _ (by decide)
    have hold : t.pixel ((x0 + k) % Config.dispW) py = s.pixel ((x0 + k) % Config.dispW) py := by
      rw [hpix _ _ hcol, (spriteColumn_eq hx hcol (by omega)).1 rfl]; simp
    have hsplit : ∀ P : Nat → Prop, (∃ c < k + 1, P c) ↔ (∃ c < k, P c) ∨ P k := fun P =>
      ⟨fun ⟨c, hc, hP⟩ => (Nat.lt_succ_iff_lt_or_eq.1 hc).elim (fun h => .inl ⟨c, h, hP⟩) (fun h => .inr (h ▸ hP)),
       fun h => h.elim (fun ⟨c, hc, hP⟩ => ⟨c, by omega, hP⟩) (fun hP => ⟨k, by omega, hP⟩)⟩
    simp only [hsplit]
    refine ⟨?_, ?_, ?_, hframe.trans (drawColumn_frame b x0 py t k)⟩
    · intro qx qy hq
      have heq := spriteColumn_eq (c := k) hx hq (by omega)
      rw [drawColumn_pixel b x0 hy, hpix qx qy hq]
      by_cases h1 : spriteColumn x0 qx = k
      · simp [heq.2 h1, (spriteColumn_eq hx hcol (show k < 8 by omega)).1 rfl, Bool.xor_comm, Bool.and_comm]
      · have h2 : ¬ qx = (x0 + k) % Config.dispW := fun h => h1 (heq.1 h)
        have h3 : spriteColumn x0 qx < k + 1 ↔ spriteColumn x0 qx < k := by omega
        simp only [h2, h3, decide_false, Bool.false_and, Bool.xor_false]
    · intro q
      rw [drawColumn_reg, hold, hreg q]
      by_cases h1 : q = VF <;> by_cases h2 : (∃ c < k, spriteBit b c = true ∧ s.pixel ((x0 + c) % Config.dispW) py = true) <;>
        by_cases h3 : spriteBit b k = true ∧ s.pixel ((x0 + k) % Config.dispW) py = true <;> simp [h1, h2, h3]
    · rw [drawColumn_dirty, Bool.or_eq_true, hdirty, or_assoc]

/-- Registers after a drawing that collides exactly when `c`: `V[0xF]` is 1 then, and nothing else changes. -/
structure FlagWhen (c : Prop) (s t : State) : Prop where
  hit : c → t.reg VF = 1#8
  miss : ¬ c → t.reg VF = s.reg VF
  others : ∀ q, q ≠ VF → t.reg q = s.reg q

theorem FlagWhen.refl (s : State) : FlagWhen False s s := ⟨False.elim, fun _ => rfl, fun _ _ => rfl⟩

theorem FlagWhen.trans {c d : Prop} {s t u : State} (h : FlagWhen c s t) (k : FlagWhen d t u) : FlagWhen (c ∨ d) s u where
  hit hcd := by
    by_cases hd : d
    · exact k.hit hd
    · rw [k.miss hd]; exact h.hit (hcd.resolve_right hd)
  miss hn := by rw [k.miss fun hd => hn (.inr hd), h.miss fun hc => hn (.inl hc)]
  others q hq := (k.others q hq).trans (h.others q hq)

theorem FlagWhen.congr {c d : Prop} {s t : State} (h : FlagWhen c s t) (e : c ↔ d) : FlagWhen d s t :=
  propext e ▸ h

/-- Over the eight columns is over the display columns a sprite row lies on. -/
theorem exists_column_iff {x0 : Nat} (hx : x0 < Config.dispW) (P : Nat → Nat → Prop) :
    (∃ c < 8, P c ((x0 + c) % Config.dispW)) ↔
      ∃ qx < Config.dispW, spriteColumn x0 qx < 8 ∧ P (spriteColumn x0 qx) qx := by
  constructor
  · rintro ⟨c, hc, hP⟩
    have hcol : (x0 + c) % Config.dispW < Config.dispW := Nat.mod_lt _ (by decide)
    have h := (spriteColumn_eq hx hcol hc).1 rfl
    exact ⟨_, hcol, by rw [h]; exact hc, by rw [h]; exact hP⟩
  · rintro ⟨qx, hq, hc, hP⟩
    exact ⟨spriteColumn x0 qx, hc, by rw [← (spriteColumn_eq hx hq hc).2 rfl]; exact hP⟩

/-- A sprite covers what its first row covers and what its other rows, one row further down, cover. -/
theorem spriteCovers_cons (b : Byte) (bs : List Byte) (x0 y0 px py : Nat) :
    spriteCovers (b :: bs) x0 y0 px py =
      ((decide (py = y0) && decide (py < Config.dispH) && decide (spriteColumn x0 px < 8) &&
          spriteBit b (spriteColumn x0 px)) || spriteCovers bs x0 (y0 + 1) px py) := by
  simp only [spriteCovers, List.length_cons]
  rcases Nat.lt_trichotomy py y0 with h | h | h
  · simp [show ¬ y0 ≤ py by omega, show ¬ y0 + 1 ≤ py by omega, show ¬ py = y0 by omega]
  · subst h
    simp [show ¬ py + 1 ≤ py by omega]
  · obtain ⟨d, rfl⟩ := Nat.exists_eq_add_of_lt h
    simp only [show ¬ y0 + d + 1 = y0 by omega, show y0 + d + 1 - y0 = d + 1 by omega,
      show y0 + d + 1 - (y0 + 1) = d by omega, show y0 ≤ y0 + d + 1 by omega, show y0 + 1 ≤ y0 + d + 1 by omega,
      show y0 + d + 1 < y0 + (bs.length + 1) ↔ y0 + d + 1 < y0 + 1 + bs.length by omega,
      List.getD_cons_succ, decide_false, Bool.false_and, Bool.false_or]

theorem spriteCovers_nil (x0 y0 px py : Nat) : spriteCovers [] x0 y0 px py = false := by
  simp [spriteCovers, spriteBit]

/-- What one unclipped sprite row does. -/
theorem drawRow_spec (b : Byte) {x0 py : Nat} (hx : x0 < Config.dispW) (hy : py < Config.dispH) (s : State) :
    let t := drawRow b x0 py s
    (∀ qx qy, qx < Config.dispW → t.pixel qx qy = (s.pixel qx qy ^^
      (decide (qy = py) && decide (spriteColumn x0 qx < 8) && spriteBit b (spriteColumn x0 qx)))) ∧
    FlagWhen (∃ qx < Config.dispW, spriteColumn x0 qx < 8 ∧ spriteBit b (spriteColumn x0 qx) ∧ s.pixel qx py) s t ∧
    (t.needsRedraw = true ↔ s.needsRedraw = true ∨
      ∃ qx < Config.dispW, spriteColumn x0 qx < 8 ∧ spriteBit b (spriteColumn x0 qx)) ∧
    DrawFrame s t := by
  obtain ⟨h1, h2, h3, h4⟩ := drawColumns_spec b hx hy s 8 (Nat.le_refl 8)
  refine ⟨h1, FlagWhen.congr ⟨fun hc => ?_, fun hc => ?_, fun q hq => ?_⟩
    (exists_column_iff hx (fun c qx => spriteBit b c = true ∧ s.pixel qx py = true)), ?_, h4⟩
  · exact (h2 VF).trans (if_pos ⟨rfl, hc⟩)
  · exact (h2 VF).trans (if_neg fun h => hc h.2)
  · exact (h2 q).trans (if_neg fun h => hq h.1)
  · rw [← exists_column_iff hx (fun c _ => spriteBit b c = true)]
    exact h3

/-- What drawing a whole sprite does: the covered pixels flip, `V[0xF]` becomes 1 if one of them was on, and the display is
dirty if there is one (R126). -/
theorem drawRows_spec {x0 : Nat} (hx : x0 < Config.dispW) (y0 : Nat) (s : State) (r : Nat) (bs : List Byte) :
    let t := drawRows x0 y0 s r bs
    (∀ qx qy, qx < Config.dispW → t.pixel qx qy = (s.pixel qx qy ^^ spriteCovers bs x0 (y0 + r) qx qy)) ∧
    FlagWhen (∃ qx < Config.dispW, ∃ qy, spriteCovers bs x0 (y0 + r) qx qy ∧ s.pixel qx qy) s t ∧
    (t.needsRedraw = true ↔ s.needsRedraw = true ∨ ∃ qx < Config.dispW, ∃ qy, spriteCovers bs x0 (y0 + r) qx qy) ∧
    DrawFrame s t := by
  induction bs generalizing s r with
  | nil => simpa [drawRows, spriteCovers_nil, DrawFrame.refl] using FlagWhen.refl s
  | cons b bs ih =>
    unfold drawRows
    split
    · rename_i hclip
      obtain ⟨h1, h2, h3, h4⟩ := ih s (r + 1)
      have hsame : ∀ qx qy, spriteCovers (b :: bs) x0 (y0 + r) qx qy = spriteCovers bs x0 (y0 + (r + 1)) qx qy := by
        intro qx qy
        rw [spriteCovers_cons, Nat.add_assoc]
        by_cases h : qy = y0 + r
        · simp [show ¬ qy < Config.dispH by omega]
        · simp [h]
      simp only [hsame]
      exact ⟨h1, h2, h3, h4⟩
    · rename_i hclip
      have hy : y0 + r < Config.dispH := by omega
      obtain ⟨a1, a2, a3, a4⟩ := drawRow_spec b hx hy s
      obtain ⟨h1, h2, h3, h4⟩ := ih (drawRow b x0 (y0 + r) s) (r + 1)
      have hlater : ∀ qx qy, spriteCovers bs x0 (y0 + (r + 1)) qx qy = true → ¬ qy = y0 + r := by
        intro qx qy h
        simp only [spriteCovers, Bool.and_eq_true, decide_eq_true_eq] at h
        omega
      have hcons : ∀ qx qy, spriteCovers (b :: bs) x0 (y0 + r) qx qy = true ↔
          (qy = y0 + r ∧ spriteColumn x0 qx < 8 ∧ spriteBit b (spriteColumn x0 qx) = true) ∨
            spriteCovers bs x0 (y0 + (r + 1)) qx qy = true := by
        intro qx qy
        rw [spriteCovers_cons, Nat.add_assoc]
        simp only [Bool.or_eq_true, Bool.and_eq_true, decide_eq_true_eq]
        constructor
        · rintro (⟨⟨⟨e, _⟩, h⟩, h'⟩ | h)
          · exact .inl ⟨e, h, h'⟩
          · exact .inr h
        · rintro (⟨e, h, h'⟩ | h)
          · exact .inl ⟨⟨⟨e, by omega⟩, h⟩, h'⟩
          · exact .inr h
      have hold : ∀ qx qy, qx < Config.dispW → spriteCovers bs x0 (y0 + (r + 1)) qx qy = true →
          (drawRow b x0 (y0 + r) s).pixel qx qy = s.pixel qx qy := by
        intro qx qy hq h
        rw [a1 qx qy hq]; simp [hlater qx qy h]
      refine ⟨fun qx qy hq => ?_, (a2.trans h2).congr ?_, ?_, a4.trans h4⟩
      · rw [h1 qx qy hq, a1 qx qy hq, Bool.xor_assoc]
        congr 1
        cases hc : spriteCovers bs x0 (y0 + (r + 1)) qx qy
        · rw [spriteCovers_cons, Nat.add_assoc, hc]
          by_cases e : qy = y0 + r
          · subst e; simp [hy]
          · simp [e]
        · rw [(hcons qx qy).2 (.inr hc)]
          simp [hlater qx qy hc]
      · constructor
        · rintro (⟨qx, hx', h, h', hp⟩ | ⟨qx, hx', qy, h, hp⟩)
          · exact ⟨qx, hx', _, (hcons qx _).2 (.inl ⟨rfl, h, h'⟩), hp⟩
          · exact ⟨qx, hx', qy, (hcons qx qy).2 (.inr h), (hold qx qy hx' h).symm.trans hp⟩
        · rintro ⟨qx, hx', qy, hc, hp⟩
          rcases (hcons qx qy).1 hc with ⟨e, h, h'⟩ | h
          · exact .inl ⟨qx, hx', h, h', e ▸ hp⟩
          · exact .inr ⟨qx, hx', qy, h, (hold qx qy hx' h).trans hp⟩
      · rw [h3, a3]
        constructor
        · rintro ((h | ⟨qx, hx', h, h'⟩) | ⟨qx, hx', qy, h⟩)
          · exact .inl h
          · exact .inr ⟨qx, hx', _, (hcons qx _).2 (.inl ⟨rfl, h, h'⟩)⟩
          · exact .inr ⟨qx, hx', qy, (hcons qx qy).2 (.inr h)⟩
        · rintro (h | ⟨qx, hx', qy, h⟩)
          · exact .inl (.inl h)
          · rcases (hcons qx qy).1 h with ⟨_, h, h'⟩ | h
            · exact .inl (.inr ⟨qx, hx', h, h'⟩)
            · exact .inr ⟨qx, hx', qy, h⟩

end Sys2Proof.Machine
end

