-- ==== Sys2Proof/Laws/Encoding.lean ====
section
/-! SUPPORT. The fields of a word built from fields, and a word rebuilt from its fields (spec 30_encoding.md R61). -/

namespace Sys2Proof

/-- The low byte is the two low nibbles, the address the three low nibbles (R61). -/
theorem fieldKK_eq (w : Word) : fieldKK w = fieldY w ++ fieldN w := by
  unfold fieldKK fieldY fieldN; ext i hi; simp; grind

theorem fieldNNN_eq (w : Word) : fieldNNN w = fieldX w ++ fieldKK w := by
  unfold fieldNNN fieldX fieldKK; ext i hi; simp; grind

/-- The register of `JP Vx,nnn` is in its address (R62). -/
theorem fieldX_eq_top (w : Word) : fieldX w = (fieldNNN w).extractLsb' 8 4 := by
  unfold fieldX fieldNNN; ext i hi; simp

/-- A word is its four nibbles. -/
theorem wordXYN_fields (w : Word) : wordXYN (fieldK w) (fieldX w) (fieldY w) (fieldN w) = w := by
  unfold wordXYN fieldK fieldX fieldY fieldN; ext i hi; simp; grind

/-- A word is its two upper nibbles and its low byte. -/
theorem wordXKK_fields (w : Word) : wordXKK (fieldK w) (fieldX w) (fieldKK w) = w := by
  unfold wordXKK fieldK fieldX fieldKK; ext i hi; simp; grind

/-- A word is its family digit and its address. -/
theorem wordNNN_fields (w : Word) : wordNNN (fieldK w) (fieldNNN w) = w := by
  unfold wordNNN fieldK fieldNNN; ext i hi; simp; grind

section
variable (k x y n : BitVec 4) (kk : Byte) (nnn : Addr)

@[simp] theorem fieldK_wordXYN : fieldK (wordXYN k x y n) = k := by unfold fieldK wordXYN; ext i hi; simp; grind
@[simp] theorem fieldX_wordXYN : fieldX (wordXYN k x y n) = x := by unfold fieldX wordXYN; ext i hi; simp; grind
@[simp] theorem fieldY_wordXYN : fieldY (wordXYN k x y n) = y := by unfold fieldY wordXYN; ext i hi; simp; grind
@[simp] theorem fieldN_wordXYN : fieldN (wordXYN k x y n) = n := by unfold fieldN wordXYN; ext i hi; simp; grind
@[simp] theorem fieldK_wordXKK : fieldK (wordXKK k x kk) = k := by unfold fieldK wordXKK; ext i hi; simp; grind
@[simp] theorem fieldX_wordXKK : fieldX (wordXKK k x kk) = x := by unfold fieldX wordXKK; ext i hi; simp; grind
@[simp] theorem fieldKK_wordXKK : fieldKK (wordXKK k x kk) = kk := by unfold fieldKK wordXKK; ext i hi; simp; grind
@[simp] theorem fieldK_wordNNN : fieldK (wordNNN k nnn) = k := by unfold fieldK wordNNN; ext i hi; simp; grind
@[simp] theorem fieldNNN_wordNNN : fieldNNN (wordNNN k nnn) = nnn := by unfold fieldNNN wordNNN; ext i hi; simp; grind
@[simp] theorem fieldX_wordNNN : fieldX (wordNNN k nnn) = nnn.extractLsb' 8 4 := by
  rw [fieldX_eq_top, fieldNNN_wordNNN]

/-- Masking a word masks its parts. -/
theorem wordXYN_and (k' x' y' n' : BitVec 4) :
    wordXYN k x y n &&& wordXYN k' x' y' n' = wordXYN (k &&& k') (x &&& x') (y &&& y') (n &&& n') := by
  unfold wordXYN; ext i hi; simp; grind
theorem wordXKK_and (k' x' : BitVec 4) (kk' : Byte) :
    wordXKK k x kk &&& wordXKK k' x' kk' = wordXKK (k &&& k') (x &&& x') (kk &&& kk') := by
  unfold wordXKK; ext i hi; simp; grind
theorem wordNNN_and (k' : BitVec 4) (nnn' : Addr) :
    wordNNN k nnn &&& wordNNN k' nnn' = wordNNN (k &&& k') (nnn &&& nnn') := by
  unfold wordNNN; ext i hi; simp; grind
end

/-- Fields that share no bit add up to their concatenation: the word formulas of the instruction rules. -/
theorem wordNNN_eq_add (k : Nibble) (nnn : Addr) :
    wordNNN k nnn = wordNNN k 0#12 + nnn.zeroExtend 16 := by
  rw [BitVec.add_eq_or_of_and_eq_zero]
  · unfold wordNNN; ext i hi; simp; grind
  · unfold wordNNN; ext i hi; simp; grind
theorem wordXKK_eq_add (k : Nibble) (x : Reg) (kk : Byte) :
    wordXKK k x kk = wordXKK k 0#4 0#8 + (x.zeroExtend 16 <<< 8) + kk.zeroExtend 16 := by
  have h : wordXKK k 0#4 0#8 + (x.zeroExtend 16 <<< 8) = wordXKK k x 0#8 := by
    rw [BitVec.add_eq_or_of_and_eq_zero]
    · unfold wordXKK; ext i hi; simp; grind
    · unfold wordXKK; ext i hi; simp; grind
  rw [h, BitVec.add_eq_or_of_and_eq_zero]
  · unfold wordXKK; ext i hi; simp; grind
  · unfold wordXKK; ext i hi; simp; grind
theorem wordXS_eq_add (k : Nibble) (x : Reg) (lo : Byte) :
    wordXKK k x lo = wordXKK k 0#4 lo + (x.zeroExtend 16 <<< 8) := by
  rw [BitVec.add_eq_or_of_and_eq_zero]
  · unfold wordXKK; ext i hi; simp; grind
  · unfold wordXKK; ext i hi; simp; grind
theorem wordXY_eq_add (k : Nibble) (x y : Reg) (n : Nibble) :
    wordXYN k x y n = wordXYN k 0#4 0#4 n + (x.zeroExtend 16 <<< 8) + (y.zeroExtend 16 <<< 4) := by
  have h : wordXYN k 0#4 0#4 n + (x.zeroExtend 16 <<< 8) = wordXYN k x 0#4 n := by
    rw [BitVec.add_eq_or_of_and_eq_zero]
    · unfold wordXYN; ext i hi; simp; grind
    · unfold wordXYN; ext i hi; simp; grind
  rw [h, BitVec.add_eq_or_of_and_eq_zero]
  · unfold wordXYN; ext i hi; simp; grind
  · unfold wordXYN; ext i hi; simp; grind
theorem wordXYN_eq_add (k : Nibble) (x y : Reg) (n : Nibble) :
    wordXYN k x y n =
      wordXYN k 0#4 0#4 0#4 + (x.zeroExtend 16 <<< 8) + (y.zeroExtend 16 <<< 4) + n.zeroExtend 16 := by
  rw [← wordXY_eq_add, BitVec.add_eq_or_of_and_eq_zero]
  · unfold wordXYN; ext i hi; simp; grind
  · unfold wordXYN; ext i hi; simp; grind

/-- The two bytes of a word, high byte first, give it back (R45). -/
@[simp] theorem wordOfBytes_bytesOfWord (w : Word) : wordOfBytes (w.extractLsb' 8 8) (w.extractLsb' 0 8) = w := by
  unfold wordOfBytes; ext i hi; simp; grind

end Sys2Proof
end

