-- ==== Sys2Proof/Laws/Control.lean ====
section
/-! SUPPORT. What can end a meaning early: range checks, the call stack, taking a fault; what a fetch and a step can do (spec
20_memory.md R42, R44; 10_state.md R15; 60_exceptions.md R168). -/

namespace Sys2Proof.Machine

@[simp] theorem State.complete_ok (s t : State) : s.complete (.ok t) = .next t := rfl
@[simp] theorem State.complete_error (s : State) (f : Fault) : s.complete (.error f) = .next (s.raise f) := rfl

/-- Accesses inside memory go on (R42). -/
theorem State.checkRange_ok {s : State} {count : Nat} (h : s.i.toNat + count ≤ Config.memSize ∨ count = 0) (t : State) :
    s.checkRange count t = .ok t := if_pos h

/-- An access beyond memory is the fault with the first address outside (R165). -/
theorem State.checkRange_error {s : State} {count : Nat} (h : Config.memSize < s.i.toNat + count) (hc : 0 < count)
    (t : State) : s.checkRange count t = .error (.memoryOutOfRange s.firstOutOfRange) :=
  if_neg (by omega)

/-- The reported address is `max(I, 4096)`, unreduced. -/
theorem State.firstOutOfRange_toNat (s : State) : s.firstOutOfRange.toNat = max s.i.toNat Config.memSize := by
  have := s.i.isLt
  simp only [State.firstOutOfRange, BitVec.toNat_ofNat, Config.memSize]
  exact Nat.mod_eq_of_lt (by omega)

/-- A checked access either goes on inside memory or is the fault of an access outside it. -/
theorem State.checkRange_cases (s : State) (count : Nat) (t : State) :
    ((s.i.toNat + count ≤ Config.memSize ∨ count = 0) ∧ s.checkRange count t = .ok t) ∨
    (Config.memSize < s.i.toNat + count ∧ 0 < count ∧
      s.checkRange count t = .error (.memoryOutOfRange s.firstOutOfRange)) := by
  by_cases h : s.i.toNat + count ≤ Config.memSize ∨ count = 0
  · exact .inl ⟨h, State.checkRange_ok h t⟩
  · have h1 : Config.memSize < s.i.toNat + count := by omega
    have h2 : 0 < count := by omega
    exact .inr ⟨h1, h2, State.checkRange_error h1 h2 t⟩

/-- A push either finds room or is the overflow (R15). -/
theorem State.push_cases (s : State) (a : Word) :
    (¬ s.StackFull ∧ s.push a = .ok { s with stack := a :: s.stack }) ∨
    (s.StackFull ∧ s.push a = .error .stackOverflow) := by
  unfold State.push
  by_cases h : s.StackFull
  · exact .inr ⟨h, if_pos h⟩
  · exact .inl ⟨h, if_neg h⟩

/-- A pop either takes the last pushed address or is the underflow (R15). -/
theorem State.popPc_cases (s : State) :
    (∃ a rest, s.stack = a :: rest ∧ s.popPc = .ok { s with stack := rest, pc := a }) ∨
    (s.stack = [] ∧ s.popPc = .error .stackUnderflow) := by
  unfold State.popPc
  cases h : s.stack with
  | nil => exact .inr ⟨rfl, rfl⟩
  | cons a rest => exact .inl ⟨a, rest, rfl, rfl⟩

@[simp] theorem State.regsUpTo_length (s : State) (x : Reg) : (s.regsUpTo x).length = x.toNat + 1 := by
  simp [State.regsUpTo]

@[simp] theorem State.bytesAtI_length (s : State) (count : Nat) : (s.bytesAtI count).length = count := by
  simp [State.bytesAtI]

@[simp] theorem decimalDigits_length (b : Byte) : (decimalDigits b).length = 3 := rfl

/-- The `j`-th of the registers up to `x`. -/
theorem State.regsUpTo_getD (s : State) (x : Reg) {j : Nat} (h : j ≤ x.toNat) (d : Byte) :
    (s.regsUpTo x).getD j d = s.reg (BitVec.ofNat 4 j) := by
  simp [State.regsUpTo, List.getD_eq_getElem?_getD, List.getElem?_range (show j < x.toNat + 1 by omega)]

/-- The `j`-th byte at `I`. -/
theorem State.bytesAtI_getD (s : State) {count j : Nat} (h : j < count) (d : Byte) :
    (s.bytesAtI count).getD j d = s.readByte (s.i.toNat + j) := by
  simp [State.bytesAtI, State.effAddr, List.getD_eq_getElem?_getD, List.getElem?_range h]

/-- A fetch at a legal pc (R44). -/
theorem State.fetch_word {s : State} (h : s.pc.toNat ≤ Config.lastFetch) :
    s.fetch = .word s.wordAtPc (s.setPc (s.pc + 2#16)) := if_neg (Nat.not_lt.2 h)

/-- A fetch beyond the last legal pc (R162). -/
theorem State.fetch_raised {s : State} (h : Config.lastFetch < s.pc.toNat) :
    s.fetch = .raised (s.raise (.fetchOutOfRange s.pc)) := if_pos h

/-- Everything a step that answers a next state can have done (R4, R44, R67, R168). -/
theorem step_cases {s t : State} (h : step s = .next t) :
    s.Running ∧
    ((Config.lastFetch < s.pc.toNat ∧ t = s.raise (.fetchOutOfRange s.pc)) ∨
     (s.pc.toNat ≤ Config.lastFetch ∧ decodeWord s.wordAtPc = none ∧ t = s.setPc (s.pc + 2#16)) ∨
     (s.pc.toNat ≤ Config.lastFetch ∧
       ∃ i, decodeWord s.wordAtPc = some i ∧ exec i (s.setPc (s.pc + 2#16)) = .next t)) := by
  unfold step at h
  split at h
  · cases h
  · rename_i hf
    refine ⟨hf, ?_⟩
    rcases Nat.lt_or_ge Config.lastFetch s.pc.toNat with hpc | hpc
    · rw [State.fetch_raised hpc] at h
      cases h
      exact .inl ⟨hpc, rfl⟩
    · rw [State.fetch_word hpc] at h
      simp only [execWord] at h
      split at h
      · rename_i i hi
        exact .inr (.inr ⟨hpc, i, hi, h⟩)
      · rename_i hn
        cases h
        exact .inr (.inl ⟨hpc, hn, rfl⟩)

/-- A step of a running machine at a legal pc executes the word there, with pc past it (R4, R44). -/
theorem step_fetched {s : State} (h : s.Running) (hpc : s.pc.toNat ≤ Config.lastFetch) :
    step s = execWord s.wordAtPc (s.setPc (s.pc + 2#16)) := by
  unfold step
  rw [h, State.fetch_word hpc]

/-- A state that a step leaves as it is stays so however many steps follow. -/
theorem core_run_fixed {s : State} (h : step s = .next s) (k : Nat) : core.run k s = .next s := by
  induction k with
  | zero => rfl
  | succ k ih =>
    simp only [Host.Core.run]
    rw [show core.step s = .next s from h]
    exact ih

end Sys2Proof.Machine
end

