-- ==== Sys2Proof/Laws/Commands.lean ====
section
/-! SUPPORT. What a STEP command and a schedule can do (spec 00_scope.md R3, R4; 60_exceptions.md R168). -/

namespace Sys2Proof.Machine

/-- STEP on a machine whose step answers a next state. -/
theorem State.stepCommand_next {s t : State} {rnd : Byte} (h : step { s with rndArg := some rnd } = .next t) :
    s.stepCommand rnd = .next (stepResponse s t, { t with rndArg := none }) := by
  unfold State.stepCommand
  rw [h]

/-- STEP on a halted machine: the recorded fault, and nothing changes. -/
theorem State.stepCommand_halted {s : State} {f : Fault} (h : s.fault = some f) (rnd : Byte) :
    s.stepCommand rnd = .next (.fault f, s) := by
  have : step { s with rndArg := some rnd } = .fault f := by
    unfold step
    simp only [h]
  unfold State.stepCommand
  rw [this]

/-- A STEP command, whatever it answers, closes LOAD's window (R203). -/
theorem Block.apply_step_stepped {b b' : Block} {rnd : Byte} {r : Response} (h : b.apply (.step rnd) = .next (r, b')) :
    b'.stepped = true := by
  simp only [Block.apply] at h
  split at h
  · cases h; rfl
  · cases h
  · cases h

/-- A schedule that answers runs its first command and then the rest. -/
theorem Block.run_cons_cases {b b' : Block} {c : Command} {cs : List Command} {rs : List Response}
    (h : b.run (c :: cs) = .next (rs, b')) :
    ∃ r b1 rs', b.apply c = .next (r, b1) ∧ b1.run cs = .next (rs', b') ∧ rs = r :: rs' := by
  simp only [Block.run] at h
  split at h
  · rename_i r b1 ha
    split at h
    · rename_i rs' b2 hr
      cases h
      exact ⟨r, b1, rs', ha, hr, rfl⟩
    · cases h
    · cases h
  · cases h
  · cases h

end Sys2Proof.Machine
end

