-- ==== Sys2Proof/Laws/Exec.lean ====
section
/-! SUPPORT. The meanings that can raise a fault, as equations under their conditions; the others unfold to one update. -/

namespace Sys2Proof.Machine

/-- RET with an address on the stack (R81). -/
theorem execRet_pops {s : State} {a : Word} {rest : List Word} (h : s.stack = a :: rest) (b : Nibble) :
    execRet b s = .next { s with stack := rest, pc := a } := by
  simp only [execRet, State.popPc, h, State.complete_ok]

/-- RET with an empty stack (R163). -/
theorem execRet_underflows {s : State} (h : s.stack = []) (b : Nibble) :
    execRet b s = .next (s.raise .stackUnderflow) := by
  simp only [execRet, State.popPc, h, State.complete_error]

/-- CALL with room on the stack (R83). -/
theorem execCallNnn_pushes {s : State} (h : ¬ s.StackFull) (nnn : Addr) :
    execCallNnn nnn s = .next { s with stack := s.pc :: s.stack, pc := addrOperand nnn } := by
  simp only [execCallNnn, State.push, if_neg h, Except.map, State.complete_ok, State.setPc]

/-- CALL with a full stack (R164). -/
theorem execCallNnn_overflows {s : State} (h : s.StackFull) (nnn : Addr) :
    execCallNnn nnn s = .next (s.raise .stackOverflow) := by
  simp only [execCallNnn, State.push, if_pos h, Except.map, State.complete_error]

/-- A meaning that checks its range goes on inside memory. -/
theorem State.complete_checkRange_ok {s : State} {count : Nat}
    (h : s.i.toNat + count ≤ Config.memSize ∨ count = 0) (t : State) : s.complete (s.checkRange count t) = .next t := by
  rw [State.checkRange_ok h, State.complete_ok]

/-- A meaning that checks its range takes the fault outside memory. -/
theorem State.complete_checkRange_error {s : State} {count : Nat} (h : Config.memSize < s.i.toNat + count)
    (hc : 0 < count) (t : State) :
    s.complete (s.checkRange count t) = .next (s.raise (.memoryOutOfRange s.firstOutOfRange)) := by
  rw [State.checkRange_error h hc, State.complete_error]

/-- A meaning that checks its range answers what it computed, or the state with the fault taken. -/
theorem State.complete_checkRange_cases {s t u : State} {count : Nat}
    (h : s.complete (s.checkRange count t) = .next u) :
    ((s.i.toNat + count ≤ Config.memSize ∨ count = 0) ∧ u = t) ∨
    (Config.memSize < s.i.toNat + count ∧ 0 < count ∧ u = s.raise (.memoryOutOfRange s.firstOutOfRange)) := by
  rcases s.checkRange_cases count t with ⟨h1, h2⟩ | ⟨h1, h0, h2⟩ <;> rw [h2] at h <;> cases h
  · exact .inl ⟨h1, rfl⟩
  · exact .inr ⟨h1, h0, rfl⟩

end Sys2Proof.Machine
end

