-- ==== Sys2Proof/Laws/Frame.lean ====
section
/-! SUPPORT. The frame of each update, and the values of the operand forms and flags as numbers (spec 30_encoding.md R63,
42_family_8_alu.md R110). -/

namespace Sys2Proof.Machine

theorem OnlyChanges.mono {s t : State} {a b : Part → Prop} (h : OnlyChanges s t a) (hab : ∀ p, a p → b p) :
    OnlyChanges s t b := fun p hp => h p fun ha => hp (hab p ha)

theorem OnlyChanges.setReg (s : State) (x : Reg) (b : Byte) : OnlyChanges s (s.setReg x b) (fun p => p = .reg x) := by
  intro p hp
  cases p <;> simp_all [SameAt]

theorem OnlyChanges.setRegFlag (s : State) (x : Reg) (b : Byte) (c : Bool) :
    OnlyChanges s (s.setRegFlag x b c) (fun p => p = .reg x ∨ p = .reg VF) := by
  intro p hp
  cases p <;> simp_all [SameAt, State.reg_setRegFlag]

theorem OnlyChanges.setPc (s : State) (a : Word) : OnlyChanges s (s.setPc a) (fun p => p = .pc) := by
  intro p hp
  cases p <;> simp_all [SameAt]

theorem OnlyChanges.skipIf (s : State) (c : Bool) : OnlyChanges s (s.skipIf c) (fun p => p = .pc) := by
  rw [State.skipIf_eq]; exact OnlyChanges.setPc s _

theorem OnlyChanges.setI (s : State) (a : Word) : OnlyChanges s (s.setI a) (fun p => p = .index) := by
  intro p hp
  cases p <;> simp_all [SameAt]

theorem OnlyChanges.setDt (s : State) (b : Byte) : OnlyChanges s (s.setDt b) (fun p => p = .delay) := by
  intro p hp
  cases p <;> simp_all [SameAt]

theorem OnlyChanges.setSt (s : State) (b : Byte) : OnlyChanges s (s.setSt b) (fun p => p = .sound) := by
  intro p hp
  cases p <;> simp_all [SameAt]

theorem OnlyChanges.raise (s : State) (f : Fault) : OnlyChanges s (s.raise f) (fun p => p = .fault) := by
  intro p hp
  cases p <;> simp_all [SameAt]

theorem OnlyChanges.writeBytes (s : State) (a : Nat) (bs : List Byte) :
    OnlyChanges s (s.writeBytes a bs) (fun p => ∃ j, j < bs.length ∧ p = .byte (a + j)) := by
  intro p hp
  cases p
  case byte c =>
    simp only [SameAt, State.readByte_writeBytes]
    split
    · rename_i hc
      have h : ¬ c - a < bs.length := fun h => hp ⟨c - a, h, by rw [Nat.add_sub_cancel' hc]⟩
      rw [List.getD_eq_default _ _ (by omega)]
    · rfl
  all_goals simp [SameAt]

theorem OnlyChanges.setRegsFrom (s : State) (i : Nat) (bs : List Byte) (h : i + bs.length ≤ 16) :
    OnlyChanges s (s.setRegsFrom i bs) (fun p => ∃ q : Reg, i ≤ q.toNat ∧ q.toNat < i + bs.length ∧ p = .reg q) := by
  intro p hp
  cases p
  case reg q =>
    simp only [SameAt, State.reg_setRegsFrom s i bs h]
    split
    · rename_i hq
      have h : ¬ q.toNat < i + bs.length := fun h => hp ⟨q, hq, h, rfl⟩
      rw [List.getD_eq_default _ _ (by omega)]
    · rfl
  all_goals simp [SameAt]

theorem addrOperand_toNat (nnn : Addr) : (addrOperand nnn).toNat = nnn.toNat := by
  simp [addrOperand]; omega

theorem wordOfByte_toNat (b : Byte) : (wordOfByte b).toNat = b.toNat := by
  simp [wordOfByte]; omega

theorem byteOfKey_toNat (k : Key) : (byteOfKey k).toNat = k.toNat := by
  simp [byteOfKey]; omega

theorem keyIs_iff (s : State) (b : Byte) : s.keyIs b = true ↔ b.toNat = s.keyCur.toNat := by
  have h : (s.keyCur.zeroExtend 8).toNat = s.keyCur.toNat := byteOfKey_toNat s.keyCur
  rw [State.keyIs, beq_iff_eq, ← BitVec.toNat_inj, h]

theorem glyphAddr_toNat (b : Byte) : (glyphAddr b).toNat = 0x50 + 5 * b.toNat := by
  have := b.isLt
  simp only [glyphAddr, Config.fontBase, BitVec.toNat_ofNat]; omega

theorem addBytes_toNat (a b : Byte) : (addBytes a b).toNat = (a.toNat + b.toNat) % 256 := by
  simp [addBytes]

theorem subBytes_toNat (a b : Byte) : ((subBytes a b).toNat : Int) = ((a.toNat : Int) - b.toNat) % 256 := by
  simp [subBytes]; omega

theorem shiftRightOne_toNat (a : Byte) : (shiftRightOne a).toNat = a.toNat / 2 := by
  simp [shiftRightOne]; omega

theorem shiftLeftOne_toNat (a : Byte) : (shiftLeftOne a).toNat = a.toNat * 2 % 256 := by
  simp [shiftLeftOne]

theorem carryFlag_iff (a b : Byte) : carryFlag a b = true ↔ 255 < a.toNat + b.toNat := by simp [carryFlag]

theorem greaterFlag_iff (a b : Byte) : greaterFlag a b = true ↔ b.toNat < a.toNat := by simp [greaterFlag]

theorem lowBitFlag_iff (a : Byte) : lowBitFlag a = true ↔ a.toNat % 2 = 1 := by
  simp [lowBitFlag, BitVec.getLsbD, Nat.testBit_zero]

theorem highBitFlag_iff (a : Byte) : highBitFlag a = true ↔ 128 ≤ a.toNat := by
  revert a; decide

theorem countDown_toNat (b : Byte) : (countDown b).toNat = b.toNat - 1 := by
  revert b; decide

/-- The flag a flag-writing instruction leaves is exactly its condition (R12, R100). -/
theorem flagIs_setRegFlag (s : State) (x : Reg) (result : Byte) {c : Bool} {P : Prop} (h : c = true ↔ P) :
    FlagIs (s.setRegFlag x result c) P := by
  constructor <;> intro hp <;> rw [State.reg_setRegFlag, if_pos rfl]
  · rw [h.2 hp]; rfl
  · rw [show c = false from Bool.eq_false_iff.2 fun hc => hp (h.1 hc)]; rfl

/-- The result a flag-writing instruction leaves in a register that is not the flag's. -/
theorem result_setRegFlag (s : State) {x : Reg} (h : x ≠ VF) (result : Byte) (c : Bool) :
    (s.setRegFlag x result c).reg x = result := by
  rw [State.reg_setRegFlag, if_neg h, if_pos rfl]

end Sys2Proof.Machine
end

