-- ==== Sys2Proof/Laws/PerInstr.lean ====
section
/-! SUPPORT. Per instruction: its row of the opcode map (spec 30_encoding.md R65), and that its word matches the row's mask. -/

namespace Sys2Proof.Laws.OpcodeRow

/-- An instruction's mask and match are a row of R65, and its word has the row's fixed bits, whatever its operands. -/
def Statement (i : Instr) : Prop := i.row ∈ opcodeMap ∧ encode i &&& i.row.1 = i.row.2

theorem low_nibble_row (k x y n : BitVec 4) :
    wordXYN k x y n &&& wordXYN 0xF#4 0#4 0#4 0xF#4 = wordXYN k 0#4 0#4 n := by
  rw [wordXYN_and]
  congr 1 <;> first | exact BitVec.and_allOnes | exact BitVec.and_zero

theorem low_byte_row (k x : BitVec 4) (kk : Byte) :
    wordXKK k x kk &&& wordXKK 0xF#4 0#4 0xFF#8 = wordXKK k 0#4 kk := by
  rw [wordXKK_and]
  congr 1 <;> first | exact BitVec.and_allOnes | exact BitVec.and_zero

theorem family_row (k : BitVec 4) (nnn : Addr) :
    wordNNN k nnn &&& wordNNN 0xF#4 0#12 = wordNNN k 0#12 := by
  rw [wordNNN_and]
  congr 1 <;> first | exact BitVec.and_allOnes | exact BitVec.and_zero

theorem family_row_kk (k x : BitVec 4) (kk : Byte) :
    wordXKK k x kk &&& wordXKK 0xF#4 0#4 0#8 = wordXKK k 0#4 0#8 := by
  rw [wordXKK_and]
  congr 1 <;> first | exact BitVec.and_allOnes | exact BitVec.and_zero

theorem family_row_xyn (k x y n : BitVec 4) :
    wordXYN k x y n &&& wordXYN 0xF#4 0#4 0#4 0#4 = wordXYN k 0#4 0#4 0#4 := by
  rw [wordXYN_and]
  congr 1 <;> first | exact BitVec.and_allOnes | exact BitVec.and_zero

theorem cls (ignored : Nibble) : Statement (.cls ignored) := ⟨of_decide_eq_true rfl, low_byte_row 0x0#4 ignored 0xE0#8⟩
theorem ret (ignored : Nibble) : Statement (.ret ignored) := ⟨of_decide_eq_true rfl, low_byte_row 0x0#4 ignored 0xEE#8⟩
theorem jpNnn (nnn : Addr) : Statement (.jpNnn nnn) := ⟨of_decide_eq_true rfl, family_row 0x1#4 nnn⟩
theorem callNnn (nnn : Addr) : Statement (.callNnn nnn) := ⟨of_decide_eq_true rfl, family_row 0x2#4 nnn⟩
theorem seVxKk (x : Reg) (kk : Byte) : Statement (.seVxKk x kk) := ⟨of_decide_eq_true rfl, family_row_kk 0x3#4 x kk⟩
theorem sneVxKk (x : Reg) (kk : Byte) : Statement (.sneVxKk x kk) := ⟨of_decide_eq_true rfl, family_row_kk 0x4#4 x kk⟩
theorem seVxVy (x y : Reg) : Statement (.seVxVy x y) := ⟨of_decide_eq_true rfl, low_nibble_row 0x5#4 x y 0x0#4⟩
theorem ldVxKk (x : Reg) (kk : Byte) : Statement (.ldVxKk x kk) := ⟨of_decide_eq_true rfl, family_row_kk 0x6#4 x kk⟩
theorem addVxKk (x : Reg) (kk : Byte) : Statement (.addVxKk x kk) := ⟨of_decide_eq_true rfl, family_row_kk 0x7#4 x kk⟩
theorem ldVxVy (x y : Reg) : Statement (.ldVxVy x y) := ⟨of_decide_eq_true rfl, low_nibble_row 0x8#4 x y 0x0#4⟩
theorem orVxVy (x y : Reg) : Statement (.orVxVy x y) := ⟨of_decide_eq_true rfl, low_nibble_row 0x8#4 x y 0x1#4⟩
theorem andVxVy (x y : Reg) : Statement (.andVxVy x y) := ⟨of_decide_eq_true rfl, low_nibble_row 0x8#4 x y 0x2#4⟩
theorem xorVxVy (x y : Reg) : Statement (.xorVxVy x y) := ⟨of_decide_eq_true rfl, low_nibble_row 0x8#4 x y 0x3#4⟩
theorem addVxVy (x y : Reg) : Statement (.addVxVy x y) := ⟨of_decide_eq_true rfl, low_nibble_row 0x8#4 x y 0x4#4⟩
theorem subVxVy (x y : Reg) : Statement (.subVxVy x y) := ⟨of_decide_eq_true rfl, low_nibble_row 0x8#4 x y 0x5#4⟩
theorem shrVx (x y : Reg) : Statement (.shrVx x y) := ⟨of_decide_eq_true rfl, low_nibble_row 0x8#4 x y 0x6#4⟩
theorem subnVxVy (x y : Reg) : Statement (.subnVxVy x y) := ⟨of_decide_eq_true rfl, low_nibble_row 0x8#4 x y 0x7#4⟩
theorem shlVx (x y : Reg) : Statement (.shlVx x y) := ⟨of_decide_eq_true rfl, low_nibble_row 0x8#4 x y 0xE#4⟩
theorem sneVxVy (x y : Reg) : Statement (.sneVxVy x y) := ⟨of_decide_eq_true rfl, low_nibble_row 0x9#4 x y 0x0#4⟩
theorem ldINnn (nnn : Addr) : Statement (.ldINnn nnn) := ⟨of_decide_eq_true rfl, family_row 0xA#4 nnn⟩
theorem jpVxNnn (x : Reg) (nnn : Addr) : Statement (.jpVxNnn x nnn) := ⟨of_decide_eq_true rfl, family_row 0xB#4 nnn⟩
theorem rndVxKk (x : Reg) (kk : Byte) : Statement (.rndVxKk x kk) := ⟨of_decide_eq_true rfl, family_row_kk 0xC#4 x kk⟩
theorem drwVxVyN (x y : Reg) (n : Nibble) : Statement (.drwVxVyN x y n) := ⟨of_decide_eq_true rfl, family_row_xyn 0xD#4 x y n⟩
theorem skpVx (x : Reg) : Statement (.skpVx x) := ⟨of_decide_eq_true rfl, low_byte_row 0xE#4 x 0x9E#8⟩
theorem sknpVx (x : Reg) : Statement (.sknpVx x) := ⟨of_decide_eq_true rfl, low_byte_row 0xE#4 x 0xA1#8⟩
theorem ldVxDt (x : Reg) : Statement (.ldVxDt x) := ⟨of_decide_eq_true rfl, low_byte_row 0xF#4 x 0x07#8⟩
theorem ldVxK (x : Reg) : Statement (.ldVxK x) := ⟨of_decide_eq_true rfl, low_byte_row 0xF#4 x 0x0A#8⟩
theorem ldDtVx (x : Reg) : Statement (.ldDtVx x) := ⟨of_decide_eq_true rfl, low_byte_row 0xF#4 x 0x15#8⟩
theorem ldStVx (x : Reg) : Statement (.ldStVx x) := ⟨of_decide_eq_true rfl, low_byte_row 0xF#4 x 0x18#8⟩
theorem addIVx (x : Reg) : Statement (.addIVx x) := ⟨of_decide_eq_true rfl, low_byte_row 0xF#4 x 0x1E#8⟩
theorem ldFVx (x : Reg) : Statement (.ldFVx x) := ⟨of_decide_eq_true rfl, low_byte_row 0xF#4 x 0x29#8⟩
theorem ldBVx (x : Reg) : Statement (.ldBVx x) := ⟨of_decide_eq_true rfl, low_byte_row 0xF#4 x 0x33#8⟩
theorem ldMemVx (x : Reg) : Statement (.ldMemVx x) := ⟨of_decide_eq_true rfl, low_byte_row 0xF#4 x 0x55#8⟩
theorem ldVxMem (x : Reg) : Statement (.ldVxMem x) := ⟨of_decide_eq_true rfl, low_byte_row 0xF#4 x 0x65#8⟩

end Sys2Proof.Laws.OpcodeRow
end

