-- ==== Sys2Proof/Laws/OpcodeMap.lean ====
section
/-! SUPPORT. When a word matches a row of the opcode map: its fields are the row's (spec 30_encoding.md R65). -/

namespace Sys2Proof

theorem matches_low_nibble_iff (w : Word) (k n : Nibble) :
    w &&& wordXYN 0xF#4 0#4 0#4 0xF#4 = wordXYN k 0#4 0#4 n ↔ fieldK w = k ∧ fieldN w = n := by
  constructor
  · intro h
    rw [← wordXYN_fields w, Laws.OpcodeRow.low_nibble_row] at h
    have h1 := congrArg fieldK h
    have h2 := congrArg fieldN h
    simp only [fieldK_wordXYN, fieldN_wordXYN] at h1 h2
    exact ⟨h1, h2⟩
  · rintro ⟨rfl, rfl⟩
    conv => lhs; rw [← wordXYN_fields w, Laws.OpcodeRow.low_nibble_row]

theorem matches_low_byte_iff (w : Word) (k : Nibble) (kk : Byte) :
    w &&& wordXKK 0xF#4 0#4 0xFF#8 = wordXKK k 0#4 kk ↔ fieldK w = k ∧ fieldKK w = kk := by
  constructor
  · intro h
    rw [← wordXKK_fields w, Laws.OpcodeRow.low_byte_row] at h
    have h1 := congrArg fieldK h
    have h2 := congrArg fieldKK h
    simp only [fieldK_wordXKK, fieldKK_wordXKK] at h1 h2
    exact ⟨h1, h2⟩
  · rintro ⟨rfl, rfl⟩
    conv => lhs; rw [← wordXKK_fields w, Laws.OpcodeRow.low_byte_row]

theorem matches_family_iff (w : Word) (k : Nibble) :
    w &&& wordNNN 0xF#4 0#12 = wordNNN k 0#12 ↔ fieldK w = k := by
  constructor
  · intro h
    rw [← wordNNN_fields w, Laws.OpcodeRow.family_row] at h
    simpa only [fieldK_wordNNN] using congrArg fieldK h
  · rintro rfl
    conv => lhs; rw [← wordNNN_fields w, Laws.OpcodeRow.family_row]

/-- Two rows that one word matches agree on the bits both fix. -/
theorem rows_agree {w : Word} {r q : Word × Word} (hr : w &&& r.1 = r.2) (hq : w &&& q.1 = q.2) :
    (r.2 ^^^ q.2) &&& r.1 &&& q.1 = 0#16 := by
  rw [← hr, ← hq]; ext i hi; simp; grind

end Sys2Proof
end

