-- ==== Sys2Proof/Tests/Slice0.lean ====
section
/-! SUPPORT. Tests of the model's own, each expected value from the spec: its vectors (95_test_vectors.md), its examples, or
its encodings; and, for every statement of Certificates/Slice0/Obligations.lean that has hypotheses, a concrete witness. -/

namespace Sys2Proof.Tests

open Sys2Proof.Machine

/-! ## Helpers -/

/-- A word placed at 0x200. -/
def place (w : Word) (s : State) : State := s.writeBytes 0x200 (bytesOfWord w)

/-- The reset state with a word at 0x200. -/
def at200 (w : Word) : State := place w State.reset

/-- Registers set to given values. -/
def setRegs (s : State) (l : List (Reg × Byte)) : State := l.foldl (fun t p => t.setReg p.1 p.2) s

/-- The vectors' usual start: a word at 0x200 and some registers set. -/
def vector (w : Word) (l : List (Reg × Byte)) : State := setRegs (at200 w) l

/-- A test of the next state. -/
def after (r : Result) (P : State → Bool) : Bool :=
  match r with
  | .next t => P t
  | .fault _ => false
  | .refused _ => false

/-- A test of a command's response and of the block after it. -/
def replies (r : Host.Outcome (Response × Block) Fault Refusal) (P : Response → Block → Bool) : Bool :=
  match r with
  | .next (a, b) => P a b
  | .fault _ => false
  | .refused _ => false

/-- A STEP command on the block whose core is `s`. -/
def stepReplies (s : State) (rnd : Byte) (P : Response → State → Bool) : Bool :=
  replies (Block.apply { core := s, stepped := false } (.step rnd)) (fun r b => P r b.core)

/-! ## Well-formedness and decoding (30_encoding.md R65, R67, R70) -/

theorem test_wellFormed_refuses_jpVx_with_wrong_register : (Instr.jpVxNnn 0x2#4 0x345#12).wellFormed = false := by decide
theorem test_wellFormed_accepts_jpVx : (Instr.jpVxNnn 0x3#4 0x345#12).wellFormed = true := by decide

theorem test_decode_cls : decodeWord 0x00E0#16 = some (.cls 0x0#4) := by decide
theorem test_decode_cls_ignored_bits : decodeWord 0x05E0#16 = some (.cls 0x5#4) := by decide
theorem test_decode_ret : decodeWord 0x00EE#16 = some (.ret 0x0#4) := by decide
theorem test_decode_jp : decodeWord 0x1ABC#16 = some (.jpNnn 0xABC#12) := by decide
theorem test_decode_call : decodeWord 0x2300#16 = some (.callNnn 0x300#12) := by decide
theorem test_decode_se_kk : decodeWord 0x3A42#16 = some (.seVxKk 0xA#4 0x42#8) := by decide
theorem test_decode_sne_kk : decodeWord 0x4A42#16 = some (.sneVxKk 0xA#4 0x42#8) := by decide
theorem test_decode_se_vy : decodeWord 0x5120#16 = some (.seVxVy 0x1#4 0x2#4) := by decide
theorem test_decode_ld_kk : decodeWord 0x6CFF#16 = some (.ldVxKk 0xC#4 0xFF#8) := by decide
theorem test_decode_add_kk : decodeWord 0x7005#16 = some (.addVxKk 0x0#4 0x05#8) := by decide
theorem test_decode_ld_vy : decodeWord 0x8120#16 = some (.ldVxVy 0x1#4 0x2#4) := by decide
theorem test_decode_or : decodeWord 0x8121#16 = some (.orVxVy 0x1#4 0x2#4) := by decide
theorem test_decode_and : decodeWord 0x8122#16 = some (.andVxVy 0x1#4 0x2#4) := by decide
theorem test_decode_xor : decodeWord 0x8123#16 = some (.xorVxVy 0x1#4 0x2#4) := by decide
theorem test_decode_add_vy : decodeWord 0x8124#16 = some (.addVxVy 0x1#4 0x2#4) := by decide
theorem test_decode_sub : decodeWord 0x8125#16 = some (.subVxVy 0x1#4 0x2#4) := by decide
theorem test_decode_shr : decodeWord 0x8126#16 = some (.shrVx 0x1#4 0x2#4) := by decide
theorem test_decode_subn : decodeWord 0x8127#16 = some (.subnVxVy 0x1#4 0x2#4) := by decide
theorem test_decode_shl : decodeWord 0x812E#16 = some (.shlVx 0x1#4 0x2#4) := by decide
theorem test_decode_sne_vy : decodeWord 0x9120#16 = some (.sneVxVy 0x1#4 0x2#4) := by decide
theorem test_decode_ld_i : decodeWord 0xA123#16 = some (.ldINnn 0x123#12) := by decide
theorem test_decode_jp_vx : decodeWord 0xB345#16 = some (.jpVxNnn 0x3#4 0x345#12) := by decide
theorem test_decode_rnd : decodeWord 0xC10F#16 = some (.rndVxKk 0x1#4 0x0F#8) := by decide
theorem test_decode_drw : decodeWord 0xD123#16 = some (.drwVxVyN 0x1#4 0x2#4 0x3#4) := by decide
theorem test_decode_skp : decodeWord 0xE19E#16 = some (.skpVx 0x1#4) := by decide
theorem test_decode_sknp : decodeWord 0xE1A1#16 = some (.sknpVx 0x1#4) := by decide
theorem test_decode_ld_vx_dt : decodeWord 0xF207#16 = some (.ldVxDt 0x2#4) := by decide
theorem test_decode_ld_vx_k : decodeWord 0xF30A#16 = some (.ldVxK 0x3#4) := by decide
theorem test_decode_ld_dt_vx : decodeWord 0xF115#16 = some (.ldDtVx 0x1#4) := by decide
theorem test_decode_ld_st_vx : decodeWord 0xF118#16 = some (.ldStVx 0x1#4) := by decide
theorem test_decode_add_i_vx : decodeWord 0xF21E#16 = some (.addIVx 0x2#4) := by decide
theorem test_decode_ld_f_vx : decodeWord 0xF029#16 = some (.ldFVx 0x0#4) := by decide
theorem test_decode_ld_b_vx : decodeWord 0xF033#16 = some (.ldBVx 0x0#4) := by decide
theorem test_decode_ld_mem_vx : decodeWord 0xF255#16 = some (.ldMemVx 0x2#4) := by decide
theorem test_decode_ld_vx_mem : decodeWord 0xFF65#16 = some (.ldVxMem 0xF#4) := by decide

/-- Reserved words of the vectors. -/
theorem test_decode_reserved :
    [0x0000#16, 0x0123#16, 0x5121#16, 0x8128#16, 0x812F#16, 0x9121#16, 0xE100#16, 0xE19F#16, 0xF100#16, 0xF1FF#16,
      0xF175#16].all (fun w => decodeWord w == none) = true := by decide

/-- High byte first (R45), and the rest of the bytes is handed back. -/
theorem test_decode_bytes : decodeBytes [0x6C#8, 0xFF#8, 0x00#8] = .instr (.ldVxKk 0xC#4 0xFF#8) [0x00#8] := by decide
theorem test_decode_bytes_reserved : decodeBytes [0x51#8, 0x21#8] = .reserved 0x5121#16 [] := by decide
theorem test_decode_bytes_truncated : decodeBytes [0x6C#8] = .truncated [0x6C#8] := by decide
theorem test_decode_table_word : decodeTableWord 16 0xD123 = some (.drwVxVyN 0x1#4 0x2#4 0x3#4) := by decide

/-- The 34 rows are pairwise disjoint (R65): two rows differ in a bit that both fix. -/
theorem test_opcode_map_disjoint :
    opcodeMap.Pairwise (fun r q => (r.2 ^^^ q.2) &&& r.1 &&& q.1 ≠ 0#16) := by decide
theorem test_opcode_map_has_34_rows : opcodeMap.length = 34 := by decide

/-! ## Reset (70_reset_and_hazards.md R200) -/

theorem test_reset_pc : State.reset.pc = 0x200#16 := by decide
theorem test_reset_font_glyph_7 : (List.range 5).map (fun j => State.reset.readByte (0x73 + j)) =
    [0xF0#8, 0x10#8, 0x20#8, 0x40#8, 0x40#8] := by decide
theorem test_font_has_80_bytes : fontTable.length = Config.fontSize := by decide

/-! ## One step per instruction (95_test_vectors.md parts 2 to 8) -/

theorem test_cls : after (step { at200 0x00E0#16 with disp := Display.flip Display.clear 3 4 })
    (fun t => t.pixel 3 4 == false && t.needsRedraw && t.pc == 0x202#16) = true := by decide
theorem test_ret : after (step { at200 0x00EE#16 with stack := [0x20A#16] })
    (fun t => t.pc == 0x20A#16 && t.stack == []) = true := by decide
theorem test_ret_underflow : stepReplies (at200 0x00EE#16) 0#8
    (fun r t => r == .fault .stackUnderflow && t.pc == 0x202#16 && t.fault == some .stackUnderflow) = true := by decide
theorem test_jp : after (step (at200 0x1ABC#16)) (fun t => t.pc == 0xABC#16) = true := by decide
theorem test_call : after (step (at200 0x2300#16)) (fun t => t.pc == 0x300#16 && t.stack == [0x202#16]) = true := by decide
theorem test_call_overflow : stepReplies { at200 0x2300#16 with stack := List.replicate 16 0x202#16 } 0#8
    (fun r t => r == .fault .stackOverflow && t.pc == 0x202#16 && t.stack.length == 16) = true := by decide
theorem test_se_kk_skips : after (step (vector 0x3A42#16 [(0xA#4, 0x42#8)])) (fun t => t.pc == 0x204#16) = true := by decide
theorem test_se_kk_goes_on : after (step (vector 0x3A42#16 [(0xA#4, 0x43#8)])) (fun t => t.pc == 0x202#16) = true := by decide
theorem test_sne_kk_skips : after (step (vector 0x4A42#16 [(0xA#4, 0x43#8)])) (fun t => t.pc == 0x204#16) = true := by decide
theorem test_sne_kk_goes_on : after (step (vector 0x4A42#16 [(0xA#4, 0x42#8)])) (fun t => t.pc == 0x202#16) = true := by decide
theorem test_se_vy_skips : after (step (vector 0x5120#16 [(0x1#4, 0x07#8), (0x2#4, 0x07#8)]))
    (fun t => t.pc == 0x204#16) = true := by decide
theorem test_se_vy_goes_on : after (step (vector 0x5120#16 [(0x1#4, 0x07#8), (0x2#4, 0x08#8)]))
    (fun t => t.pc == 0x202#16) = true := by decide
theorem test_ld_kk : after (step (at200 0x6F12#16)) (fun t => t.reg VF == 0x12#8) = true := by decide
theorem test_add_kk_wraps : after (step (vector 0x7005#16 [(0x0#4, 0xFE#8)]))
    (fun t => t.reg 0x0#4 == 0x03#8 && t.reg VF == 0x00#8) = true := by decide
theorem test_add_kk_to_flag_register : after (step (vector 0x7F01#16 [(VF, 0xFF#8)])) (fun t => t.reg VF == 0x00#8) = true := by
  decide
theorem test_ld_vy : after (step (vector 0x8120#16 [(0x1#4, 0x11#8), (0x2#4, 0x22#8)]))
    (fun t => t.reg 0x1#4 == 0x22#8) = true := by decide
theorem test_or : after (step (vector 0x8121#16 [(0x1#4, 0x0F#8), (0x2#4, 0xF0#8)]))
    (fun t => t.reg 0x1#4 == 0xFF#8) = true := by decide
theorem test_and : after (step (vector 0x8122#16 [(0x1#4, 0x3C#8), (0x2#4, 0x0F#8)]))
    (fun t => t.reg 0x1#4 == 0x0C#8) = true := by decide
theorem test_xor : after (step (vector 0x8123#16 [(0x1#4, 0xFF#8), (0x2#4, 0x0F#8)]))
    (fun t => t.reg 0x1#4 == 0xF0#8) = true := by decide
theorem test_add_vy_carry : after (step (vector 0x8124#16 [(0x1#4, 0xFA#8), (0x2#4, 0x0A#8)]))
    (fun t => t.reg 0x1#4 == 0x04#8 && t.reg VF == 0x01#8) = true := by decide
theorem test_add_vf_keeps_flag : after (step (vector 0x8F14#16 [(VF, 0xFF#8), (0x1#4, 0x01#8)]))
    (fun t => t.reg VF == 0x01#8) = true := by decide
theorem test_sub_borrow : after (step (vector 0x8125#16 [(0x1#4, 0x03#8), (0x2#4, 0x0A#8)]))
    (fun t => t.reg 0x1#4 == 0xF9#8 && t.reg VF == 0x00#8) = true := by decide
theorem test_sub_equal : after (step (vector 0x8125#16 [(0x1#4, 0x07#8), (0x2#4, 0x07#8), (VF, 0x01#8)]))
    (fun t => t.reg 0x1#4 == 0x00#8 && t.reg VF == 0x00#8) = true := by decide
theorem test_shr : after (step (vector 0x8126#16 [(0x1#4, 0x05#8)]))
    (fun t => t.reg 0x1#4 == 0x02#8 && t.reg VF == 0x01#8) = true := by decide
theorem test_shr_ignores_vy : after (step (vector 0x8126#16 [(0x1#4, 0x04#8), (0x2#4, 0xFF#8), (VF, 0x01#8)]))
    (fun t => t.reg 0x1#4 == 0x02#8 && t.reg VF == 0x00#8) = true := by decide
theorem test_subn : after (step (vector 0x8127#16 [(0x1#4, 0x03#8), (0x2#4, 0x0A#8)]))
    (fun t => t.reg 0x1#4 == 0x07#8 && t.reg VF == 0x01#8) = true := by decide
theorem test_subn_borrow : after (step (vector 0x8127#16 [(0x1#4, 0x0A#8), (0x2#4, 0x03#8)]))
    (fun t => t.reg 0x1#4 == 0xF9#8 && t.reg VF == 0x00#8) = true := by decide
theorem test_shl : after (step (vector 0x812E#16 [(0x1#4, 0x81#8)]))
    (fun t => t.reg 0x1#4 == 0x02#8 && t.reg VF == 0x01#8) = true := by decide
theorem test_shl_vf_keeps_flag : after (step (vector 0x8F0E#16 [(VF, 0x81#8)])) (fun t => t.reg VF == 0x01#8) = true := by
  decide
theorem test_sne_vy_skips : after (step (vector 0x9120#16 [(0x1#4, 0x07#8), (0x2#4, 0x08#8)]))
    (fun t => t.pc == 0x204#16) = true := by decide
theorem test_sne_vy_goes_on : after (step (vector 0x9120#16 [(0x1#4, 0x07#8), (0x2#4, 0x07#8)]))
    (fun t => t.pc == 0x202#16) = true := by decide
theorem test_ld_i : after (step (at200 0xAFFF#16)) (fun t => t.i == 0xFFF#16) = true := by decide
theorem test_jp_vx_adds_its_own_register : after (step (vector 0xB210#16 [(0x2#4, 0x04#8), (0x0#4, 0x40#8)]))
    (fun t => t.pc == 0x214#16) = true := by decide
theorem test_jp_vx_does_not_wrap : after (step (vector 0xBFFF#16 [(VF, 0xFF#8)])) (fun t => t.pc == 0x10FE#16) = true := by
  decide
theorem test_rnd : stepReplies (at200 0xC10F#16) 0xA7#8
    (fun r t => r == .ok && t.reg 0x1#4 == 0x07#8 && t.rndArg == none) = true := by decide
theorem test_rnd_mask_zero : stepReplies (vector 0xC100#16 [(0x1#4, 0x55#8)]) 0xFF#8
    (fun _ t => t.reg 0x1#4 == 0x00#8) = true := by decide
theorem test_skp : after (step { vector 0xE19E#16 [(0x1#4, 0x05#8)] with keyCur := 0x5#4 })
    (fun t => t.pc == 0x204#16) = true := by decide
theorem test_skp_full_width : after (step { vector 0xE19E#16 [(0x1#4, 0x15#8)] with keyCur := 0x5#4 })
    (fun t => t.pc == 0x202#16) = true := by decide
theorem test_sknp : after (step { vector 0xE1A1#16 [(0x1#4, 0x05#8)] with keyCur := 0x6#4 })
    (fun t => t.pc == 0x204#16) = true := by decide
theorem test_sknp_goes_on : after (step { vector 0xE1A1#16 [(0x1#4, 0x05#8)] with keyCur := 0x5#4 })
    (fun t => t.pc == 0x202#16) = true := by decide
theorem test_ld_vx_dt : after (step { at200 0xF107#16 with dt := 0x2A#8 })
    (fun t => t.reg 0x1#4 == 0x2A#8 && t.dt == 0x2A#8) = true := by decide
theorem test_ld_vx_k_waits : after (step { at200 0xF10A#16 with keyCur := 0x7#4, keyPrev := 0x3#4 })
    (fun t => t.pc == 0x200#16 && t.reg 0x1#4 == 0x00#8) = true := by decide
theorem test_ld_vx_k_stores : after
    (step { at200 0xF10A#16 with keyCur := 0x7#4, keyPrev := 0x3#4, keyTransition := true })
    (fun t => t.pc == 0x202#16 && t.reg 0x1#4 == 0x07#8 && t.keyTransition) = true := by decide
theorem test_ld_dt_vx : after (step (vector 0xF115#16 [(0x1#4, 0x3C#8)]))
    (fun t => t.dt == 0x3C#8 && t.st == 0x00#8) = true := by decide
theorem test_ld_st_vx : after (step (vector 0xF118#16 [(0x1#4, 0x3C#8)]))
    (fun t => t.st == 0x3C#8 && t.dt == 0x00#8) = true := by decide
theorem test_add_i_no_flag : after (step { vector 0xF11E#16 [(0x1#4, 0xFF#8), (VF, 0x07#8)] with i := 0x0FFF#16 })
    (fun t => t.i == 0x10FE#16 && t.reg VF == 0x07#8) = true := by decide
theorem test_add_i_wraps : after (step { vector 0xF11E#16 [(0x1#4, 0xFF#8)] with i := 0xFFFF#16 })
    (fun t => t.i == 0x00FE#16) = true := by decide
theorem test_ld_f : after (step (vector 0xF129#16 [(0x1#4, 0x0A#8)])) (fun t => t.i == 0x0082#16) = true := by decide
theorem test_ld_f_full_width : after (step (vector 0xF129#16 [(0x1#4, 0xFF#8)])) (fun t => t.i == 0x054B#16) = true := by
  decide
theorem test_ld_b : after (step { vector 0xF133#16 [(0x1#4, 0xEA#8)] with i := 0x300#16 })
    (fun t => t.readByte 0x300 == 0x02#8 && t.readByte 0x301 == 0x03#8 && t.readByte 0x302 == 0x04#8) = true := by decide
theorem test_ld_b_range : stepReplies { vector 0xF133#16 [(0x1#4, 0x64#8)] with i := 0x0FFE#16 } 0#8
    (fun r t => r == .fault (.memoryOutOfRange 0x1000#16) && t.readByte 0xFFE == 0x00#8 && t.pc == 0x202#16) = true := by decide
theorem test_ld_mem_vx : after
    (step { vector 0xF255#16 [(0x0#4, 0x11#8), (0x1#4, 0x22#8), (0x2#4, 0x33#8), (0x3#4, 0x44#8)] with i := 0x300#16 })
    (fun t => t.readByte 0x300 == 0x11#8 && t.readByte 0x301 == 0x22#8 && t.readByte 0x302 == 0x33#8 &&
      t.readByte 0x303 == 0x00#8 && t.i == 0x300#16) = true := by decide
theorem test_ld_mem_vx_range : stepReplies { vector 0xF155#16 [(0x0#4, 0x11#8), (0x1#4, 0x22#8)] with i := 0x0FFF#16 } 0#8
    (fun r t => r == .fault (.memoryOutOfRange 0x1000#16) && t.readByte 0xFFF == 0x00#8) = true := by decide
theorem test_ld_vx_mem : after
    (step { (at200 0xF265#16).writeBytes 0x300 [0xDE#8, 0xAD#8, 0xBE#8, 0xEF#8] with i := 0x300#16 })
    (fun t => t.reg 0x0#4 == 0xDE#8 && t.reg 0x1#4 == 0xAD#8 && t.reg 0x2#4 == 0xBE#8 && t.reg 0x3#4 == 0x00#8 &&
      t.i == 0x300#16) = true := by decide
theorem test_ld_vx_mem_range : stepReplies { at200 0xFF65#16 with i := 0x0FF1#16 } 0#8
    (fun r t => r == .fault (.memoryOutOfRange 0x1000#16) && t.reg 0x0#4 == 0x00#8) = true := by decide

/-- The corner example of R126: columns wrap, the third row is dropped. -/
def cornerState : State :=
  { (vector 0xD123#16 [(0x1#4, 0x7E#8), (0x2#4, 0x3E#8)]).writeBytes 0x300 [0xF0#8, 0x81#8, 0xFF#8] with i := 0x300#16 }

theorem test_drw_wraps_and_clips : after (step cornerState)
    (fun t => t.pixel 126 62 && t.pixel 127 62 && t.pixel 0 62 && t.pixel 1 62 && t.pixel 126 63 && t.pixel 5 63 &&
      !t.pixel 2 62 && !t.pixel 127 63 && !t.pixel 126 0 && t.reg VF == 0x00#8 && t.needsRedraw) = true := by decide
theorem test_drw_collides : after
    (step { (vector 0xD121#16 [(0x1#4, 0x82#8), (0x2#4, 0x46#8)]).writeByte 0x301 0x40#8 with
      i := 0x301#16, disp := Display.flip (Display.flip Display.clear 2 6) 3 6 })
    (fun t => t.pixel 2 6 && !t.pixel 3 6 && t.reg VF == 0x01#8 && t.needsRedraw) = true := by decide

/-! ## Fetch, reserved words and the host commands (95_test_vectors.md parts 8 and 9) -/

theorem test_reserved_is_reported : stepReplies (vector 0x5121#16 [(0x1#4, 0x07#8), (0x2#4, 0x07#8)]) 0#8
    (fun r t => r == .okUnrecognized 0x5121#16 && t.pc == 0x202#16) = true := by decide
theorem test_fetch_at_4094_is_legal : stepReplies { State.reset with pc := 0x0FFE#16 } 0#8
    (fun r t => r == .okUnrecognized 0x0000#16 && t.pc == 0x1000#16) = true := by decide
theorem test_fetch_at_4096_faults : stepReplies { State.reset with pc := 0x1000#16 } 0#8
    (fun r t => r == .fault (.fetchOutOfRange 0x1000#16) && t.pc == 0x1000#16 &&
      t.fault == some (.fetchOutOfRange 0x1000#16)) = true := by decide
theorem test_fetch_at_odd_pc : after
    (step { State.reset.writeBytes 0xFFD [0x12#8, 0x00#8] with pc := 0x0FFD#16 }) (fun t => t.pc == 0x200#16) = true := by
  decide
theorem test_fault_codes : [none, some (.fetchOutOfRange 0#16), some .stackUnderflow, some .stackOverflow,
    some (.memoryOutOfRange 0#16)].map faultCode = [0, 1, 2, 3, 4] := by decide
theorem test_withFetchWord : after (step (State.reset.withFetchWord 16 0x6CFF)) (fun t => t.reg 0xC#4 == 0xFF#8) = true := by
  decide
theorem test_tick : ({ State.reset with dt := 2#8, st := 1#8 }.tick.tick.dt,
    { State.reset with dt := 2#8, st := 1#8 }.tick.tick.st) = (0#8, 0#8) := by decide
theorem test_key_press_of_another_key : (State.reset.keyPress 0x5#4).keyTransition = true := by decide
theorem test_key_press_of_the_reset_key : (State.reset.keyPress 0x0#4).keyTransition = false := by decide
theorem test_load_of_two_bytes : replies (Block.reset.apply (.load [0x60#8, 0x2A#8]))
    (fun r b => r == .ok && b.core.readByte 0x200 == 0x60#8 && b.core.readByte 0x201 == 0x2A#8) = true := by decide
theorem test_load_of_3585_bytes : State.reset.load (List.replicate 3585 0#8) = none :=
  if_neg (by rw [List.length_replicate]; decide)

/-! ## Witnesses: for each statement with hypotheses, values that meet all of them, and one for each of its clauses -/

theorem witness_DecodeInvertsEncode : (Instr.jpVxNnn 0xF#4 0xFFF#12).wellFormed = true := by decide

theorem witness_EncodeInvertsDecode : decodeWord 0xBFFF#16 = some (.jpVxNnn 0xF#4 0xFFF#12) := by decide

/-- One reserved word of each family that has any, beside an instruction of its table. -/
theorem witness_ReservedWordsAreThoseListed :
    [0x0FE1#16, 0x5FF1#16, 0x8FF8#16, 0x8FFD#16, 0x9FFF#16, 0xEFA2#16, 0xFF64#16].all (fun w => decodeWord w == none) &&
    [0x0FE0#16, 0x5FF0#16, 0x8FF7#16, 0x8FFE#16, 0x9FF0#16, 0xEFA1#16, 0xFF65#16].all (fun w => decodeWord w != none) =
      true := by decide

theorem witness_DecoderFollowsOpcodeMap :
    decodeWord 0xFF65#16 = some (.ldVxMem 0xF#4) ∧ (0xF0FF#16, 0xF065#16) ∈ opcodeMap ∧
      0xFF65#16 &&& 0xF0FF#16 = 0xF065#16 := by decide

/-- An instruction at the last address a fetch allows. -/
def atLastFetch : State := { State.reset.writeBytes 0xFFE [0x6C#8, 0xFF#8] with pc := 0x0FFE#16 }

theorem witness_StepRunsDecodedInstruction : atLastFetch.Fetches (.instr (.ldVxKk 0xC#4 0xFF#8) []) :=
  ⟨rfl, by decide, by decide⟩

theorem witness_ReservedWordIsNoOp : State.reset.Fetches (.reserved 0x0000#16 []) := ⟨rfl, by decide, by decide⟩

/-- The first pc beyond the legal ones. -/
theorem witness_FetchFaultsExactlyAbove4094_fault :
    let s : State := { State.reset with pc := 0x0FFF#16 }
    s.Running ∧ 4094 < s.pc.toNat := ⟨rfl, by decide⟩

/-- The last legal pc. -/
theorem witness_FetchFaultsExactlyAbove4094_legal :
    atLastFetch.Running ∧ atLastFetch.pc.toNat ≤ 4094 ∧ ∃ t, step atLastFetch = .next t := ⟨rfl, by decide, _, rfl⟩

theorem witness_HaltedMachineOnlyReportsItsFault : (State.reset.raise .stackUnderflow).fault = some .stackUnderflow := rfl

theorem witness_RunningMachineAlwaysSteps :
    State.reset.Running ∧ (∃ t, step State.reset = .next t) ∧ ¬ (State.reset.raise .stackUnderflow).Running :=
  ⟨rfl, ⟨_, rfl⟩, by decide⟩

theorem witness_FaultsArePrecise_fetch :
    ∃ t, step { State.reset with pc := 0xFFFF#16 } = .next t ∧ t.fault = some (.fetchOutOfRange 0xFFFF#16) := ⟨_, rfl, by decide⟩

theorem witness_FaultsArePrecise_execute :
    ∃ t, step (at200 0x00EE#16) = .next t ∧ t.fault = some .stackUnderflow ∧ t.pc = 0x202#16 :=
  ⟨_, rfl, by decide, by decide⟩

theorem witness_EachFaultHasItsCause_underflow :
    State.reset.Running ∧ ∃ t, exec (.ret 0x0#4) State.reset = .next t ∧ t.fault = some .stackUnderflow :=
  ⟨rfl, _, rfl, by decide⟩

/-- The call stack with `k` entries. -/
def withDepth (k : Nat) : State := { State.reset with stack := List.replicate k 0x202#16 }

theorem witness_EachFaultHasItsCause_overflow :
    (withDepth 16).Running ∧
      ∃ t, exec (.callNnn 0x300#12) (withDepth 16) = .next t ∧ t.fault = some .stackOverflow :=
  ⟨rfl, _, rfl, by decide⟩

/-- The reset state with `I` at a given address. -/
def withI (a : Word) : State := { State.reset with i := a }

theorem witness_EachFaultHasItsCause_range :
    (withI 0xFFFF#16).Running ∧ 0 < (Instr.ldMemVx 0x0#4).accessLength ∧
      ∃ t, exec (.ldMemVx 0x0#4) (withI 0xFFFF#16) = .next t ∧ t.fault = some (.memoryOutOfRange 0xFFFF#16) :=
  ⟨rfl, by decide, _, rfl, by decide⟩

theorem witness_RetPopsOrUnderflows : (withDepth 1).stack = 0x202#16 :: [] ∧ (withDepth 0).stack = [] := by decide

theorem witness_CallPushesOrOverflows :
    ¬ (withDepth 15).StackFull ∧ (withDepth 16).StackFull ∧ ¬ { withDepth 16 with stackDepth := none }.StackFull := by decide

theorem witness_RetReturnsAfterItsCall :
    ¬ (withDepth 15).StackFull ∧
      ∃ t, exec (.callNnn 0x300#12) (withDepth 15) = .next t ∧ (t.setReg VF 1#8).stack = t.stack :=
  ⟨by decide, _, rfl, rfl⟩

theorem witness_SkipsOnRegisters : (0xF#4 : Nibble) ≠ 0x0#4 := by decide

/-- Sums 255 and 256, with a destination that is not the flag register. -/
theorem witness_AddSetsCarry :
    let s := setRegs State.reset [(0x1#4, 0xFF#8), (0x3#4, 0x01#8)]
    (0x1#4 : Reg) ≠ VF ∧ ¬ 255 < (s.reg 0x1#4).toNat + (s.reg 0x2#4).toNat ∧
      255 < (s.reg 0x1#4).toNat + (s.reg 0x3#4).toNat := by decide

/-- Equal, smaller and greater operands. -/
theorem witness_SubtractsSetStrictNoBorrow :
    let s := setRegs State.reset [(0x1#4, 0x07#8), (0x2#4, 0x07#8), (0x3#4, 0x06#8)]
    (0x1#4 : Reg) ≠ VF ∧ ¬ (s.reg 0x2#4).toNat < (s.reg 0x1#4).toNat ∧ (s.reg 0x3#4).toNat < (s.reg 0x1#4).toNat := by decide

/-- The bit that falls out set and clear, at both ends. -/
theorem witness_ShiftsMoveOnePlace :
    let s := setRegs State.reset [(0x1#4, 0x7F#8), (0x2#4, 0x80#8)]
    (0x1#4 : Reg) ≠ VF ∧ (s.reg 0x1#4).toNat % 2 = 1 ∧ ¬ (s.reg 0x2#4).toNat % 2 = 1 ∧
      ¬ 128 ≤ (s.reg 0x1#4).toNat ∧ 128 ≤ (s.reg 0x2#4).toNat := by decide

theorem witness_RndMasksTheRandomByte :
    { State.reset with rndArg := some 0xFF#8 }.rndArg = some 0xFF#8 ∧ State.reset.rndArg = none := by decide

/-- Fifteen rows that end at the last byte, and no rows with `I` far outside. -/
theorem witness_DrwXorsItsSprite :
    (0xF#4 = 0#4 ∨ (withI 0xFF1#16).i.toNat + (0xF#4 : Nibble).toNat ≤ 4096) ∧
      (0#4 = 0#4 ∨ (withI 0xFFFF#16).i.toNat + (0#4 : Nibble).toNat ≤ 4096) := by decide

theorem witness_DrwTwiceRestoresTheDisplay :
    (0x1#4 : Reg) ≠ VF ∧ (0x2#4 : Reg) ≠ VF ∧ cornerState.i.toNat + (0x3#4 : Nibble).toNat ≤ 4096 ∧
      (∀ px py, cornerState.pixel px py = false) ∧
      ∃ px py, px < 128 ∧ spriteCovers (cornerState.bytesAtI (0x3#4 : Nibble).toNat)
        ((cornerState.reg 0x1#4).toNat % 128) ((cornerState.reg 0x2#4).toNat % 64) px py = true :=
  ⟨by decide, by decide, by decide, fun px py => Display.get_clear px py, 1, 62, by decide, by decide⟩

/-- The machine waiting at LD V1,K at 0x200. -/
def waiting : State := at200 0xF10A#16

theorem witness_KeyWaitTestsTheTransition :
    waiting.keyTransition = false ∧ (waiting.keyPress 0x7#4).keyTransition = true := by decide

theorem witness_KeyWaitHoldsUntilANewKey :
    waiting.Fetches (.instr (.ldVxK 0x1#4) []) ∧ waiting.keyTransition = false ∧ (0x7#4 : Key) ≠ waiting.keyCur :=
  ⟨⟨rfl, by decide, by decide⟩, by decide, by decide⟩

theorem witness_LdBStoresDecimalDigits : (withI 0xFFD#16).i.toNat + 2 ≤ 4095 := by decide

theorem witness_BlockStoreCopiesRegisters : (withI 0xFF0#16).i.toNat + (0xF#4 : Reg).toNat ≤ 4095 := by decide

theorem witness_BlockLoadCopiesMemory :
    (withI 0xFFF#16).i.toNat + (0x0#4 : Reg).toNat ≤ 4095 ∧ (0x0#4 : Reg).toNat ≤ (0x0#4 : Reg).toNat := by decide

theorem witness_StoreThenLoadRestoresRegisters :
    (withI 0xFFE#16).i.toNat + (0x1#4 : Reg).toNat ≤ 4095 ∧
      ∃ t, exec (.ldMemVx 0x1#4) (withI 0xFFE#16) = .next t ∧ (t.setReg 0x3#4 9#8).i = t.i ∧
        (t.setReg 0x3#4 9#8).mem = t.mem :=
  ⟨by decide, _, rfl, rfl, rfl⟩

/-- Each of the four instructions, with its first byte too many. -/
theorem witness_RangeFaultChangesNothingElse :
    (0 < (Instr.drwVxVyN 0x0#4 0x0#4 0xF#4).accessLength ∧ 4096 < (withI 0xFF2#16).i.toNat + (Instr.drwVxVyN 0x0#4 0x0#4 0xF#4).accessLength) ∧
      (0 < (Instr.ldBVx 0x0#4).accessLength ∧ 4096 < (withI 0xFFE#16).i.toNat + (Instr.ldBVx 0x0#4).accessLength) ∧
      (0 < (Instr.ldMemVx 0x1#4).accessLength ∧ 4096 < (withI 0xFFF#16).i.toNat + (Instr.ldMemVx 0x1#4).accessLength) ∧
      0 < (Instr.ldVxMem 0xF#4).accessLength ∧ 4096 < (withI 0xFF1#16).i.toNat + (Instr.ldVxMem 0xF#4).accessLength := by
  decide

theorem witness_OnlyTheNamedInstructionsWrite : ∃ t, exec (.jpNnn 0x300#12) State.reset = .next t := ⟨_, rfl⟩

theorem witness_OnlyDestinationRegistersChange :
    (∃ t, exec (.addVxVy 0x1#4 0x2#4) State.reset = .next t) ∧ ¬ (Instr.addVxVy 0x1#4 0x2#4).writesReg 0x2#4 ∧
      (Instr.addVxVy 0x1#4 0x2#4).writesReg VF :=
  ⟨⟨_, rfl⟩, by simp only [Instr.writesReg]; decide, by simp only [Instr.writesReg]; decide⟩

/-- CLS touches none of the parts with a condition but its own; JP, its pc apart, none at all. -/
theorem witness_OnlyTheNamedInstructionsWrite_pc_and_fault :
    (∀ x kk, Instr.cls 0x0#4 ≠ .seVxKk x kk) ∧ (∀ x, Instr.cls 0x0#4 ≠ .ldVxK x) ∧ (∀ b, Instr.jpNnn 0x300#12 ≠ .ret b) ∧
      (∀ x, Instr.jpNnn 0x300#12 ≠ .ldVxMem x) ∧ ∃ t, exec (.cls 0x0#4) State.reset = .next t :=
  ⟨by simp, by simp, by simp, by simp, _, rfl⟩

theorem witness_HiddenStateNeverInfluencesAStep : ∃ t, step (at200 0xF118#16) = .next t := ⟨_, rfl⟩

theorem witness_DelayTimerIsReadByOneInstruction :
    (∀ x, Instr.ldDtVx 0x1#4 ≠ .ldVxDt x) ∧ ∃ t, exec (.ldDtVx 0x1#4) State.reset = .next t := ⟨by simp, _, rfl⟩

theorem witness_RandomByteIsReadByRndAlone :
    (∀ x kk, Instr.ldDtVx 0x1#4 ≠ .rndVxKk x kk) ∧ (∃ t, exec (.ldDtVx 0x1#4) State.reset = .next t) ∧
      (∀ x kk, ¬ State.reset.Fetches (.instr (.rndVxKk x kk) [])) ∧ ∃ t, step State.reset = .next t :=
  ⟨by simp, ⟨_, rfl⟩, fun _ _ h => Decoded.noConfusion (h.2.2.symm.trans (by decide :
    decodeBytes [State.reset.readByte State.reset.pc.toNat, State.reset.readByte (State.reset.pc.toNat + 1)] =
      .reserved 0x0000#16 [])), _, rfl⟩

/-- LD [I],V1 at 0x200, about to plant the word 0x6A55 at 0x202 (program P5). -/
def planting : State := { vector 0xF155#16 [(0x0#4, 0x6A#8), (0x1#4, 0x55#8)] with i := 0x202#16 }

theorem witness_StoredInstructionIsFetchedNext :
    planting.Fetches (.instr (.ldMemVx 0x1#4) []) ∧ 1 ≤ (0x1#4 : Reg).toNat ∧ planting.i = planting.pc + 2#16 ∧
      planting.i.toNat + (0x1#4 : Reg).toNat ≤ 4095 ∧
      decodeWord (planting.reg 0x0#4 ++ planting.reg 0x1#4) = some (.ldVxKk 0xA#4 0x55#8) :=
  ⟨⟨rfl, by decide, by decide⟩, by decide, by decide, by decide, by decide⟩

theorem witness_EndLoopLeavesAllState : (at200 0x1200#16).AtEndLoop := ⟨rfl, by decide, by decide⟩

theorem reset_inv : State.reset.Inv where
  mem := Memory.wf_reset
  depth := by decide
  returns := fun _ h => absurd h List.not_mem_nil
  pc := by decide
  fault := trivial

theorem witness_EveryStepKeepsTheInvariant : State.reset.Inv ∧ ∃ t, step State.reset = .next t := ⟨reset_inv, _, rfl⟩

theorem witness_EveryScheduleKeepsTheInvariant :
    Block.reset.core.Inv ∧ ∃ rs b, Block.reset.run [.step 0#8, .tick, .keyPress 0x5#4] = .next (rs, b) :=
  ⟨reset_inv, _, _, rfl⟩

/-- A press of another key and of the same key; the flag already set. -/
theorem witness_KeyCommandsDriveTheLatch :
    (0x5#4 : Key) ≠ State.reset.keyCur ∧ ¬ (0x0#4 : Key) ≠ State.reset.keyCur ∧
      ((State.reset.keyPress 0x5#4).keyPress 0x5#4).keyTransition = true := by decide

/-- An image that just fits and one that is one byte too long. -/
theorem witness_LoadCopiesAFittingImage :
    Block.reset.mayLoad = true ∧ 0x200 + (List.replicate 3584 0#8).length ≤ 4096 ∧
      4096 < 0x200 + (List.replicate 3585 0#8).length := by
  rw [List.length_replicate, List.length_replicate]; decide

theorem witness_LoadHasNoMoveAfterAStep :
    ∃ r b1 rs b2, Block.reset.apply (.step 0#8) = .next (r, b1) ∧ Command.reset ∉ [Command.tick, .clearRedraw] ∧
      b1.run [.tick, .clearRedraw] = .next (rs, b2) :=
  ⟨_, _, _, _, rfl, by decide, rfl⟩

/-- A command that is neither of the two, on a dirty display. -/
theorem witness_DisplayCommandsReadAndClear :
    Command.step 0#8 ≠ .clearRedraw ∧ Command.step 0#8 ≠ .reset ∧ State.reset.clearDisplay.needsRedraw = true ∧
      ∃ r b, Block.apply { core := State.reset.clearDisplay, stepped := false } (.step 0#8) = .next (r, b) :=
  ⟨by decide, by decide, rfl, _, _, rfl⟩

/-- The bytes next to the font on both sides. -/
theorem witness_ResetLeavesTheseValues :
    (0x4F < 4096 ∧ ¬ (0x50 ≤ 0x4F ∧ 0x4F ≤ 0x9F)) ∧ (0xA0 < 4096 ∧ ¬ (0x50 ≤ 0xA0 ∧ 0xA0 ≤ 0x9F)) := by decide

theorem witness_HostCommandsIgnoreTheFaultStatus :
    Command.tick ∈ [Command.tick, .clearKeyTransition, .readDisplay, .needsRedraw, .clearRedraw] ∧
      (∃ r b, Block.apply { core := State.reset.raise .stackUnderflow, stepped := true } .tick = .next (r, b)) ∧
      ∃ r b, Block.apply { core := State.reset.raise .stackUnderflow, stepped := true } (.keyPress 0x5#4) = .next (r, b) :=
  ⟨by decide, ⟨_, _, rfl⟩, ⟨_, _, rfl⟩⟩

theorem witness_DirtyFlagMissesNoChange :
    Command.reset ∉ [Command.step 0#8] ∧ Command.clearRedraw ∉ [Command.step 0#8] ∧
      (∃ rs b, Block.run { core := cornerState, stepped := true } (redrawFrame ++ [.step 0#8]) = .next (rs, b) ∧
        b.core.pixel 1 62 ≠ cornerState.pixel 1 62) ∧
      ∃ rs b, Block.run { core := State.reset.clearDisplay, stepped := true } [.step 0#8] = .next (rs, b) ∧
        State.reset.clearDisplay.needsRedraw = true :=
  ⟨by decide, by decide, ⟨_, _, rfl, by decide⟩, _, _, rfl, rfl⟩

/-- An instruction, a reserved word and a fault. -/
theorem witness_StepCommandAnswersWhatItExecuted :
    (at200 0x6CFF#16).Running ∧ (at200 0x6CFF#16).Fetches (.instr (.ldVxKk 0xC#4 0xFF#8) []) ∧
      State.reset.Fetches (.reserved 0x0000#16 []) ∧
      ∃ t, step { at200 0x00EE#16 with rndArg := some 0#8 } = .next t ∧ t.fault = some .stackUnderflow :=
  ⟨rfl, ⟨rfl, by decide, by decide⟩, ⟨rfl, by decide, by decide⟩, _, rfl, by decide⟩

end Sys2Proof.Tests
end

section
/-! SUPPORT. Proofs for families 0x0, 0x1, 0x2 (spec 40_family_0_to_2.md). -/

namespace Sys2Proof

/-- Decoding a word of format NNN dispatches on its family digit, with its address as the operand (R62, R64). -/
theorem decodeWord_wordNNN (k : Nibble) (nnn : Addr) :
    decodeWord (wordNNN k nnn) =
      decodeFields k (nnn.extractLsb' 8 4) (fieldY (wordNNN k nnn)) (fieldN (wordNNN k nnn))
        (fieldKK (wordNNN k nnn)) nnn := by
  rw [decodeWord, fieldK_wordNNN, fieldX_wordNNN, fieldNNN_wordNNN]

theorem decodeWord_jpNnn (nnn : Addr) : decodeWord (0x1000#16 + nnn.zeroExtend 16) = some (.jpNnn nnn) := by
  have hword : wordNNN 0x1#4 nnn = 0x1000#16 + nnn.zeroExtend 16 := wordNNN_eq_add 0x1#4 nnn
  rw [← hword, decodeWord_wordNNN]
  rfl

namespace Machine

theorem exec_jpNnn (nnn : Addr) (s : State) : exec (.jpNnn nnn) s = .next (s.setPc (addrOperand nnn)) := rfl

/-- Settles O15: a jump is one update of pc, so the frame of that update and the value of the address operand give it. -/
theorem jpSetsPc : Obligations.JpSetsPc := by
  intro nnn s
  have hpc : (s.setPc (addrOperand nnn)).pc.toNat = nnn.toNat := by
    rw [State.setPc_pc, addrOperand_toNat]
  exact ⟨decodeWord_jpNnn nnn, _, exec_jpNnn nnn s, hpc, OnlyChanges.setPc s _⟩

end Machine

end Sys2Proof
end

section
/-! SUPPORT. Proofs for families 0x3 to 0x7 (spec 41_family_3_to_7.md). -/

namespace Sys2Proof

/-- Decoding the word formula of format XKK, the family's lowest word plus the register and the low byte in their places,
dispatches on the family digit with these two as operands (R62, R64). -/
theorem decodeWord_sumXKK (k : Nibble) (x : Reg) (kk : Byte) :
    decodeWord (wordXKK k 0#4 0#8 + (x.zeroExtend 16 <<< 8) + kk.zeroExtend 16) =
      decodeFields k x (fieldY (wordXKK k x kk)) (fieldN (wordXKK k x kk)) kk (fieldNNN (wordXKK k x kk)) := by
  rw [← wordXKK_eq_add, decodeWord, fieldK_wordXKK, fieldX_wordXKK, fieldKK_wordXKK]

theorem decodeWord_seVxKk (x : Reg) (kk : Byte) :
    decodeWord (0x3000#16 + (x.zeroExtend 16 <<< 8) + kk.zeroExtend 16) = some (.seVxKk x kk) :=
  decodeWord_sumXKK 0x3#4 x kk

theorem decodeWord_sneVxKk (x : Reg) (kk : Byte) :
    decodeWord (0x4000#16 + (x.zeroExtend 16 <<< 8) + kk.zeroExtend 16) = some (.sneVxKk x kk) :=
  decodeWord_sumXKK 0x4#4 x kk

theorem decodeWord_ldVxKk (x : Reg) (kk : Byte) :
    decodeWord (0x6000#16 + (x.zeroExtend 16 <<< 8) + kk.zeroExtend 16) = some (.ldVxKk x kk) :=
  decodeWord_sumXKK 0x6#4 x kk

theorem decodeWord_addVxKk (x : Reg) (kk : Byte) :
    decodeWord (0x7000#16 + (x.zeroExtend 16 <<< 8) + kk.zeroExtend 16) = some (.addVxKk x kk) :=
  decodeWord_sumXKK 0x7#4 x kk

namespace Machine

theorem State.reg_setReg_self (s : State) (x : Reg) (b : Byte) : (s.setReg x b).reg x = b := by
  rw [State.reg_setReg, if_pos rfl]

/-- A skip under a decided condition moves pc by two more bytes exactly when the condition holds (R14, R90). -/
theorem State.skipIf_decide (s : State) (p : Prop) [Decidable p] :
    s.skipIf (decide p) = s.setPc (if p then s.pc + 2#16 else s.pc) := by
  rw [State.skipIf_eq]; simp only [decide_eq_true_eq]

theorem exec_seVxKk (x : Reg) (kk : Byte) (s : State) :
    exec (.seVxKk x kk) s = .next (s.setPc (if s.reg x = kk then s.pc + 2#16 else s.pc)) := by
  rw [← State.skipIf_decide]; rfl

theorem exec_sneVxKk (x : Reg) (kk : Byte) (s : State) :
    exec (.sneVxKk x kk) s = .next (s.setPc (if s.reg x ≠ kk then s.pc + 2#16 else s.pc)) := by
  have hne : decide (s.reg x ≠ kk) = (s.reg x != kk) := decide_not
  rw [← State.skipIf_decide, hne]; rfl

theorem exec_ldVxKk (x : Reg) (kk : Byte) (s : State) : exec (.ldVxKk x kk) s = .next (s.setReg x kk) := rfl

theorem exec_addVxKk (x : Reg) (kk : Byte) (s : State) :
    exec (.addVxKk x kk) s = .next (s.setReg x (addBytes (s.reg x) kk)) := rfl

/-- On a register just loaded, the addition starts from the loaded byte (R93, R94). -/
theorem exec_addVxKk_after_load (x : Reg) (kk b : Byte) (s : State) :
    exec (.addVxKk x b) (s.setReg x kk) = .next ((s.setReg x kk).setReg x (addBytes kk b)) := by
  rw [exec_addVxKk, State.reg_setReg_self]

/-- A register that was given a sum of bytes reads as their sum modulo 256 (R94). -/
theorem reg_setReg_addBytes_toNat (s : State) (x : Reg) (a b : Byte) :
    ((s.setReg x (addBytes a b)).reg x).toNat = (a.toNat + b.toNat) % 256 := by
  rw [State.reg_setReg_self, addBytes_toNat]

/-- Settles O18: either skip is one update of pc whose value is the condition's branch, so the frame of that update
gives the rest. -/
theorem skipsOnImmediate : Obligations.SkipsOnImmediate := by
  intro x kk s
  refine ⟨decodeWord_seVxKk x kk, ?_, decodeWord_sneVxKk x kk, ?_⟩
  · exact ⟨_, exec_seVxKk x kk s, State.setPc_pc s _, OnlyChanges.setPc s _⟩
  · exact ⟨_, exec_sneVxKk x kk s, State.setPc_pc s _, OnlyChanges.setPc s _⟩

/-- Settles O20: load and add are each one update of the destination; after the load, the add finds the loaded byte there. -/
theorem immediatesLoadAndAdd : Obligations.ImmediatesLoadAndAdd := by
  intro x kk s
  refine ⟨decodeWord_ldVxKk x kk, ?load, decodeWord_addVxKk x kk, ?add, fun b => ?loadThenAdd⟩
  case load => exact ⟨_, exec_ldVxKk x kk s, State.reg_setReg_self s x kk, OnlyChanges.setReg s x _⟩
  case add => exact ⟨_, exec_addVxKk x kk s, reg_setReg_addBytes_toNat s x _ kk, OnlyChanges.setReg s x _⟩
  case loadThenAdd =>
    exact ⟨_, exec_ldVxKk x kk s, _, exec_addVxKk_after_load x kk b s, reg_setReg_addBytes_toNat _ x kk b⟩

end Machine

end Sys2Proof
end

section
/-! SUPPORT. Proofs for families 0x9 to 0xC (spec 43_family_9_to_C.md). -/

namespace Sys2Proof

theorem decodeWord_ldINnn (nnn : Addr) : decodeWord (0xA000#16 + nnn.zeroExtend 16) = some (.ldINnn nnn) := by
  have hword : wordNNN 0xA#4 nnn = 0xA000#16 + nnn.zeroExtend 16 := wordNNN_eq_add 0xA#4 nnn
  rw [← hword, decodeWord_wordNNN]
  rfl

namespace Machine

theorem exec_ldINnn (nnn : Addr) (s : State) : exec (.ldINnn nnn) s = .next (s.setI (addrOperand nnn)) := rfl

/-- Settles O25: the load is one update of I, so the frame of that update and the value of the address operand give it. -/
theorem ldILoadsAddress : Obligations.LdILoadsAddress := by
  intro nnn s
  have hi : (s.setI (addrOperand nnn)).i.toNat = nnn.toNat := by
    rw [State.setI_i, addrOperand_toNat]
  exact ⟨decodeWord_ldINnn nnn, _, exec_ldINnn nnn s, hi, OnlyChanges.setI s _⟩

end Machine

end Sys2Proof
end

section
/-! SUPPORT. Proofs for family 0xF (spec 46_family_F_misc.md). -/

namespace Sys2Proof

/-- Decoding the word formula of format XS, the row's fixed bits plus the register in its place, dispatches on the family
digit with the register and the fixed low byte as operands (R62, R64). -/
theorem decodeWord_sumXS (k : Nibble) (x : Reg) (lo : Byte) :
    decodeWord (wordXKK k 0#4 lo + (x.zeroExtend 16 <<< 8)) =
      decodeFields k x (fieldY (wordXKK k x lo)) (fieldN (wordXKK k x lo)) lo (fieldNNN (wordXKK k x lo)) := by
  rw [← wordXS_eq_add, decodeWord, fieldK_wordXKK, fieldX_wordXKK, fieldKK_wordXKK]

theorem decodeWord_ldVxDt (x : Reg) : decodeWord (0xF007#16 + (x.zeroExtend 16 <<< 8)) = some (.ldVxDt x) :=
  decodeWord_sumXS 0xF#4 x 0x07#8

theorem decodeWord_ldVxK (x : Reg) : decodeWord (0xF00A#16 + (x.zeroExtend 16 <<< 8)) = some (.ldVxK x) :=
  decodeWord_sumXS 0xF#4 x 0x0A#8

theorem decodeWord_ldDtVx (x : Reg) : decodeWord (0xF015#16 + (x.zeroExtend 16 <<< 8)) = some (.ldDtVx x) :=
  decodeWord_sumXS 0xF#4 x 0x15#8

theorem decodeWord_ldStVx (x : Reg) : decodeWord (0xF018#16 + (x.zeroExtend 16 <<< 8)) = some (.ldStVx x) :=
  decodeWord_sumXS 0xF#4 x 0x18#8

namespace Machine

theorem exec_ldVxDt (x : Reg) (s : State) : exec (.ldVxDt x) s = .next (s.setReg x s.dt) := rfl

theorem exec_ldDtVx (x : Reg) (s : State) : exec (.ldDtVx x) s = .next (s.setDt (s.reg x)) := rfl

theorem exec_ldStVx (x : Reg) (s : State) : exec (.ldStVx x) s = .next (s.setSt (s.reg x)) := rfl

theorem exec_ldVxK (x : Reg) (s : State) :
    exec (.ldVxK x) s =
      .next (if s.keyTransition then s.setReg x (byteOfKey s.keyCur) else s.setPc (s.pc - 2#16)) := rfl

/-- With a transition latched, the key wait stores the current key (R142). -/
theorem exec_ldVxK_latched {s : State} (h : s.keyTransition = true) (x : Reg) :
    exec (.ldVxK x) s = .next (s.setReg x (byteOfKey s.keyCur)) := by
  rw [exec_ldVxK, if_pos h]

/-- With no transition latched, the key wait puts pc back onto itself (R142). -/
theorem exec_ldVxK_waiting {s : State} (h : s.keyTransition = false) (x : Reg) :
    exec (.ldVxK x) s = .next (s.setPc (s.pc - 2#16)) := by
  rw [exec_ldVxK, if_neg (Bool.eq_false_iff.1 h)]

/-- Settles O31: each of the three is one update, of the register or of the timer, so the frame of that update gives the
rest; the delay timer read by the first is outside its frame. -/
theorem timerInstructionsMoveBytes : Obligations.TimerInstructionsMoveBytes := by
  intro x s
  refine ⟨decodeWord_ldVxDt x, decodeWord_ldDtVx x, decodeWord_ldStVx x, ?readDelay, ?writeDelay, ?writeSound⟩
  case readDelay => exact ⟨_, exec_ldVxDt x s, State.reg_setReg_self s x s.dt, OnlyChanges.setReg s x _⟩
  case writeDelay => exact ⟨_, exec_ldDtVx x s, State.setDt_dt s _, OnlyChanges.setDt s _⟩
  case writeSound => exact ⟨_, exec_ldStVx x s, State.setSt_st s _, OnlyChanges.setSt s _⟩

/-- Settles O32: the level of the flag selects one update, of the register or of pc; the flag itself is in neither frame. -/
theorem keyWaitTestsTheTransition : Obligations.KeyWaitTestsTheTransition := by
  intro x s
  refine ⟨decodeWord_ldVxK x, fun hlatched => ?stores, fun hwaiting => ?repeats⟩
  case stores =>
    have hkey : ((s.setReg x (byteOfKey s.keyCur)).reg x).toNat = s.keyCur.toNat := by
      rw [State.reg_setReg_self, byteOfKey_toNat]
    exact ⟨_, exec_ldVxK_latched hlatched x, hkey, OnlyChanges.setReg s x _⟩
  case repeats => exact ⟨_, exec_ldVxK_waiting hwaiting x, State.setPc_pc s _, OnlyChanges.setPc s _⟩

end Machine

end Sys2Proof
end

section
/-! SUPPORT. Proofs for the timers, the key latch and the display flag as the host's commands move them (spec
60_exceptions.md R173 to R179). -/

namespace Sys2Proof.Machine

/-! ## What each command answers (R3) -/

@[simp] theorem Block.apply_tick (b : Block) : b.apply .tick = .next (.done, { b with core := b.core.tick }) := rfl

@[simp] theorem Block.apply_keyPress (b : Block) (code : Key) :
    b.apply (.keyPress code) = .next (.done, { b with core := b.core.keyPress code }) := rfl

@[simp] theorem Block.apply_clearKeyTransition (b : Block) :
    b.apply .clearKeyTransition = .next (.done, { b with core := b.core.clearKeyTransition }) := rfl

@[simp] theorem Block.apply_readDisplay (b : Block) : b.apply .readDisplay = .next (.display b.core.disp, b) := rfl

@[simp] theorem Block.apply_needsRedraw (b : Block) : b.apply .needsRedraw = .next (.redraw b.core.needsRedraw, b) := rfl

@[simp] theorem Block.apply_clearRedraw (b : Block) :
    b.apply .clearRedraw = .next (.done, { b with core := b.core.clearRedraw }) := rfl

/-- A LOAD that answers finds its window open, and either copies a fitting image or rejects the image (R166, R202, R203). -/
theorem Block.apply_load_cases {b b' : Block} {bytes : List Byte} {r : Response}
    (h : b.apply (.load bytes) = .next (r, b')) :
    b.mayLoad = true ∧
    ((Config.progBase + bytes.length ≤ Config.memSize ∧ r = .ok ∧
        b' = { b with core := b.core.writeBytes Config.progBase bytes }) ∨
     (Config.memSize < Config.progBase + bytes.length ∧ r = .loadError ∧ b' = b)) := by
  by_cases hmay : b.mayLoad = true
  · rw [Block.apply, if_pos hmay, State.load] at h
    refine ⟨hmay, ?_⟩
    by_cases hfits : Config.progBase + bytes.length ≤ Config.memSize
    · rw [if_pos hfits] at h
      cases h
      exact .inl ⟨hfits, rfl, rfl⟩
    · rw [if_neg hfits] at h
      cases h
      exact .inr ⟨Nat.lt_of_not_le hfits, rfl, rfl⟩
  · rw [Block.apply, if_neg hmay] at h
    cases h

/-- A STEP command either steps the core with its argument, which is gone afterwards, or answers the fault the core has
halted with and leaves the core alone (R4, R168). -/
theorem Block.apply_step_cases {b b' : Block} {rnd : Byte} {r : Response} (h : b.apply (.step rnd) = .next (r, b')) :
    (∃ t, step { b.core with rndArg := some rnd } = .next t ∧ r = stepResponse b.core t ∧
        b' = { core := { t with rndArg := none }, stepped := true }) ∨
    (∃ f, step { b.core with rndArg := some rnd } = .fault f ∧ r = .fault f ∧
        b' = { core := b.core, stepped := true }) := by
  simp only [Block.apply, State.stepCommand] at h
  cases hstep : step { b.core with rndArg := some rnd } with
  | next t =>
    rw [hstep] at h
    cases h
    exact .inl ⟨t, rfl, rfl, rfl⟩
  | fault f =>
    rw [hstep] at h
    cases h
    exact .inr ⟨f, rfl, rfl, rfl⟩
  | refused why =>
    rw [hstep] at h
    cases h

/-! ## TICK counts both timers down (R173) -/

theorem OnlyChanges.tick (s : State) : OnlyChanges s s.tick (fun p => p = .delay ∨ p = .sound) := by
  intro p hp
  cases p <;> simp_all [SameAt]

/-- A countdown repeated `k` times takes off `k`, and stays at 0 once it is there. -/
theorem countDown_iterate_toNat (b : Byte) (k : Nat) : (countDown^[k] b).toNat = b.toNat - k := by
  induction k with
  | zero => rfl
  | succ k ih => rw [Function.iterate_succ_apply', countDown_toNat, ih, Nat.sub_sub]

theorem State.tick_iterate_dt (s : State) (k : Nat) : (State.tick^[k] s).dt = countDown^[k] s.dt :=
  Function.Semiconj.iterate_right State.tick_dt k s

theorem State.tick_iterate_st (s : State) (k : Nat) : (State.tick^[k] s).st = countDown^[k] s.st :=
  Function.Semiconj.iterate_right State.tick_st k s

/-- Settles O49: each timer of the ticked state is the countdown of the old one, so `k` ticks are `k` countdowns of each. -/
theorem tickCountsDownToZero : Obligations.TickCountsDownToZero := by
  refine ⟨Block.apply_tick, OnlyChanges.tick, fun s k => ⟨?_, ?_⟩⟩
  · rw [State.tick_iterate_dt, countDown_iterate_toNat]
  · rw [State.tick_iterate_st, countDown_iterate_toNat]

/-! ## The key commands move the latch (R175, R176) -/

theorem OnlyChanges.keyPress (s : State) (code : Key) :
    OnlyChanges s (s.keyPress code) (fun p => p = .keyCur ∨ p = .keyPrev ∨ p = .keyTransition) := by
  intro p hp
  cases p <;> simp_all [SameAt]

theorem OnlyChanges.clearKeyTransition (s : State) :
    OnlyChanges s s.clearKeyTransition (fun p => p = .keyTransition) := by
  intro p hp
  cases p <;> simp_all [SameAt]

/-- After a press the flag is up exactly when it was up already or the key is another one (R175). -/
theorem State.keyPress_keyTransition_iff (s : State) (code : Key) :
    (s.keyPress code).keyTransition = true ↔ s.keyTransition = true ∨ code ≠ s.keyCur := by
  rw [State.keyPress_keyTransition, Bool.or_eq_true, bne_iff_ne]

/-- Settles O50: either command is one update of the latch, so the update's own equations and its frame give it. -/
theorem keyCommandsDriveTheLatch : Obligations.KeyCommandsDriveTheLatch := by
  intro b code
  refine ⟨⟨_, Block.apply_keyPress b code, ?prev, ?cur, ?flag, OnlyChanges.keyPress b.core code⟩, ?clear⟩
  case prev => exact State.keyPress_keyPrev b.core code
  case cur => exact State.keyPress_keyCur b.core code
  case flag => exact State.keyPress_keyTransition_iff b.core code
  case clear =>
    exact ⟨_, Block.apply_clearKeyTransition b, State.clearKeyTransition_keyTransition b.core,
      OnlyChanges.clearKeyTransition b.core⟩

/-! ## The display flag: no instruction and no command but CLEAR_REDRAW and RESET clears it (R17, R179) -/

theorem OnlyChanges.clearRedraw (s : State) : OnlyChanges s s.clearRedraw (fun p => p = .dirty) := by
  intro p hp
  cases p <;> simp_all [SameAt]

@[simp] theorem State.skipIf_needsRedraw (s : State) (c : Bool) : (s.skipIf c).needsRedraw = s.needsRedraw := by
  rw [State.skipIf_eq, State.setPc_needsRedraw]

/-- A draw only raises the flag (R126, R127). -/
theorem drawRows_keeps_dirty {s : State} (hdirty : s.needsRedraw = true) (b : Byte) (y0 r : Nat) (sprite : List Byte) :
    (drawRows (anchorCol b) y0 s r sprite).needsRedraw = true := by
  have hcol : anchorCol b < Config.dispW := Nat.mod_lt _ (by decide)
  obtain ⟨-, -, hraised, -⟩ := drawRows_spec hcol y0 s r sprite
  exact hraised.2 (.inl hdirty)

/-- A meaning that checks its range leaves the flag up when what it computes does: the fault it may take instead is only
recorded (R165, R168). -/
theorem State.complete_checkRange_keeps_dirty {s t u : State} {count : Nat}
    (h : s.complete (s.checkRange count t) = .next u) (hs : s.needsRedraw = true) (ht : t.needsRedraw = true) :
    u.needsRedraw = true := by
  rcases State.complete_checkRange_cases h with ⟨-, rfl⟩ | ⟨-, -, rfl⟩
  · exact ht
  · exact hs

/-- Neither a pop nor the underflow touches the flag (R81, R163). -/
theorem execRet_needsRedraw {s t : State} {ignored : Nibble} (h : execRet ignored s = .next t) :
    t.needsRedraw = s.needsRedraw := by
  cases hstack : s.stack with
  | nil => rw [execRet_underflows hstack] at h; cases h; rfl
  | cons a rest => rw [execRet_pops hstack] at h; cases h; rfl

/-- Neither a push nor the overflow touches the flag (R83, R164). -/
theorem execCallNnn_needsRedraw {s t : State} {nnn : Addr} (h : execCallNnn nnn s = .next t) :
    t.needsRedraw = s.needsRedraw := by
  by_cases hfull : s.StackFull
  · rw [execCallNnn_overflows hfull] at h; cases h; rfl
  · rw [execCallNnn_pushes hfull] at h; cases h; rfl

/-- Neither the store of the key nor the wait touches the flag (R142). -/
theorem execLdVxK_needsRedraw {s t : State} {x : Reg} (h : execLdVxK x s = .next t) :
    t.needsRedraw = s.needsRedraw := by
  cases h
  split <;> rfl

/-- No instruction clears the flag. -/
theorem exec_keeps_dirty {i : Instr} {s t : State} (h : exec i s = .next t) (hdirty : s.needsRedraw = true) :
    t.needsRedraw = true := by
  cases i
  case cls => cases h; rfl
  case drwVxVyN x y n =>
    have hflag : (s.setFlag false).needsRedraw = true := hdirty
    exact State.complete_checkRange_keeps_dirty h hdirty (drawRows_keeps_dirty hflag _ _ _ _)
  case ldBVx x => exact State.complete_checkRange_keeps_dirty h hdirty (by rwa [State.writeBytes_needsRedraw])
  case ldMemVx x => exact State.complete_checkRange_keeps_dirty h hdirty (by rwa [State.writeBytes_needsRedraw])
  case ldVxMem x => exact State.complete_checkRange_keeps_dirty h hdirty (by rwa [State.setRegsFrom_needsRedraw])
  case ret ignored => rwa [execRet_needsRedraw (ignored := ignored) h]
  case callNnn nnn => rwa [execCallNnn_needsRedraw (nnn := nnn) h]
  case ldVxK x => rwa [execLdVxK_needsRedraw (x := x) h]
  case rndVxKk => cases h; rwa [State.setReg_needsRedraw, State.consumeRandom_needsRedraw]
  case seVxKk | sneVxKk | seVxVy | sneVxVy | skpVx | sknpVx => cases h; rwa [State.skipIf_needsRedraw]
  all_goals cases h; exact hdirty

/-- No step clears the flag, whether it executes, skips a reserved word or takes a fault. -/
theorem step_keeps_dirty {s t : State} (h : step s = .next t) (hdirty : s.needsRedraw = true) :
    t.needsRedraw = true := by
  obtain ⟨-, ⟨-, rfl⟩ | ⟨-, -, rfl⟩ | ⟨-, i, -, hexec⟩⟩ := step_cases h
  · exact hdirty
  · exact hdirty
  · exact exec_keeps_dirty hexec hdirty

/-- No command but CLEAR_REDRAW and RESET clears the flag. -/
theorem Block.apply_keeps_dirty {b b' : Block} {c : Command} {r : Response} (hclear : c ≠ .clearRedraw)
    (hreset : c ≠ .reset) (h : b.apply c = .next (r, b')) (hdirty : b.core.needsRedraw = true) :
    b'.core.needsRedraw = true := by
  cases c
  case reset => exact absurd rfl hreset
  case clearRedraw => exact absurd rfl hclear
  case load bytes =>
    obtain ⟨-, ⟨-, -, rfl⟩ | ⟨-, -, rfl⟩⟩ := Block.apply_load_cases h
    · rwa [State.writeBytes_needsRedraw]
    · exact hdirty
  case step rnd =>
    obtain ⟨t, hstep, -, rfl⟩ | ⟨f, -, -, rfl⟩ := Block.apply_step_cases h
    · exact step_keeps_dirty (t := t) hstep hdirty
    · exact hdirty
  all_goals cases h; exact hdirty

/-- Settles O51: the two reads answer with the block they were given, the clear is one update of the flag, and every other
command but RESET keeps a flag that is up. -/
theorem displayCommandsReadAndClear : Obligations.DisplayCommandsReadAndClear := by
  intro b
  refine ⟨?grid, Block.apply_needsRedraw b, ?clear, fun c r b' => Block.apply_keeps_dirty⟩
  case grid => exact ⟨_, Block.apply_readDisplay b, fun px py _ _ => rfl⟩
  case clear => exact ⟨_, Block.apply_clearRedraw b, State.clearRedraw_needsRedraw b.core, OnlyChanges.clearRedraw b.core⟩

end Sys2Proof.Machine
end

section
/-! SUPPORT. Proofs for the encoding (spec 30_encoding.md): decoder and encoder are inverse to each other, the reserved words
are those of R67, and the decoder follows the opcode map of R65. -/

namespace Sys2Proof

/-! ## The word of an instruction decodes to it -/

/-- Decoding a word of format XKK dispatches on its family digit, with its register and low byte as operands (R62, R64). -/
theorem decodeWord_wordXKK (k : Nibble) (x : Reg) (kk : Byte) :
    decodeWord (wordXKK k x kk) =
      decodeFields k x (fieldY (wordXKK k x kk)) (fieldN (wordXKK k x kk)) kk (fieldNNN (wordXKK k x kk)) := by
  rw [decodeWord, fieldK_wordXKK, fieldX_wordXKK, fieldKK_wordXKK]

/-- Decoding a word of format XYN dispatches on its family digit, with its registers and low nibble as operands (R62, R64). -/
theorem decodeWord_wordXYN (k : Nibble) (x y : Reg) (n : Nibble) :
    decodeWord (wordXYN k x y n) =
      decodeFields k x y n (fieldKK (wordXYN k x y n)) (fieldNNN (wordXYN k x y n)) := by
  rw [decodeWord, fieldK_wordXYN, fieldX_wordXYN, fieldY_wordXYN, fieldN_wordXYN]

/-- Settles O1: the fields of an instruction's word are its operands, so the dispatch over them finds its constructor; the
register of JP Vx,nnn is the one its well-formedness names. -/
theorem decodeInvertsEncode : Obligations.DecodeInvertsEncode := by
  intro i hwf
  cases i
  case jpVxNnn x nnn =>
    obtain rfl : x = nnn.extractLsb' 8 4 := eq_of_beq hwf
    exact decodeWord_wordNNN 0xB#4 nnn
  case jpNnn | callNnn | ldINnn => exact decodeWord_wordNNN _ _
  case cls | ret | seVxKk | sneVxKk | ldVxKk | addVxKk | rndVxKk => exact decodeWord_wordXKK _ _ _
  case skpVx | sknpVx | ldVxDt | ldVxK | ldDtVx | ldStVx | addIVx | ldFVx | ldBVx | ldMemVx | ldVxMem =>
    exact decodeWord_wordXKK _ _ _
  all_goals exact decodeWord_wordXYN _ _ _ _

/-! ## The decoded instruction has the word it came from -/

/-- `i` has a word, and the word is `w`. -/
abbrev Instr.HasWord (i : Instr) (w : Word) : Prop := i.wellFormed = true ∧ encode i = w

theorem decodeFamily0_hasWord {x : Nibble} {kk : Byte} {i : Instr} (h : decodeFamily0 x kk = some i) :
    i.HasWord (wordXKK 0x0#4 x kk) := by
  unfold decodeFamily0 at h
  split_ifs at h <;> cases h <;> subst kk <;> exact ⟨rfl, rfl⟩

theorem decodeFamily8_hasWord {x y : Reg} {n : Nibble} {i : Instr} (h : decodeFamily8 x y n = some i) :
    i.HasWord (wordXYN 0x8#4 x y n) := by
  unfold decodeFamily8 at h
  split_ifs at h <;> cases h <;> subst n <;> exact ⟨rfl, rfl⟩

theorem decodeFamilyE_hasWord {x : Reg} {kk : Byte} {i : Instr} (h : decodeFamilyE x kk = some i) :
    i.HasWord (wordXKK 0xE#4 x kk) := by
  unfold decodeFamilyE at h
  split_ifs at h <;> cases h <;> subst kk <;> exact ⟨rfl, rfl⟩

theorem decodeFamilyF_hasWord {x : Reg} {kk : Byte} {i : Instr} (h : decodeFamilyF x kk = some i) :
    i.HasWord (wordXKK 0xF#4 x kk) := by
  unfold decodeFamilyF at h
  split_ifs at h <;> cases h <;> subst kk <;> exact ⟨rfl, rfl⟩

/-- A case split for families and sub-keys. -/
theorem nibble_cases (k : Nibble) :
    k = 0x0#4 ∨ k = 0x1#4 ∨ k = 0x2#4 ∨ k = 0x3#4 ∨ k = 0x4#4 ∨ k = 0x5#4 ∨ k = 0x6#4 ∨ k = 0x7#4 ∨ k = 0x8#4 ∨
      k = 0x9#4 ∨ k = 0xA#4 ∨ k = 0xB#4 ∨ k = 0xC#4 ∨ k = 0xD#4 ∨ k = 0xE#4 ∨ k = 0xF#4 := by
  revert k; decide

theorem wordXYN_of_fieldK {w : Word} {k : Nibble} (hk : fieldK w = k) :
    wordXYN k (fieldX w) (fieldY w) (fieldN w) = w := hk ▸ wordXYN_fields w

theorem wordXKK_of_fieldK {w : Word} {k : Nibble} (hk : fieldK w = k) : wordXKK k (fieldX w) (fieldKK w) = w :=
  hk ▸ wordXKK_fields w

theorem wordNNN_of_fieldK {w : Word} {k : Nibble} (hk : fieldK w = k) : wordNNN k (fieldNNN w) = w :=
  hk ▸ wordNNN_fields w

/-- Families 0x5 and 0x9 accept one low nibble (R64). -/
theorem decodeLowNibbleZero_hasWord {j i : Instr} {n : Nibble} {word : Nibble → Word} (hj : j.HasWord (word 0x0#4))
    (h : (if n = 0x0#4 then some j else none) = some i) : i.HasWord (word n) := by
  split_ifs at h with hn
  rwa [hn, ← Option.some.inj h]

/-- What the decoder reads has the word it was read from, family by family (R64, R65). -/
theorem decodeWord_hasWord {w : Word} {i : Instr} (h : decodeWord w = some i) : i.HasWord w := by
  rcases nibble_cases (fieldK w) with hk | hk | hk | hk | hk | hk | hk | hk | hk | hk | hk | hk | hk | hk | hk | hk <;>
    rw [decodeWord, hk] at h
  · exact wordXKK_of_fieldK hk ▸ decodeFamily0_hasWord h
  · exact Option.some.inj h ▸ ⟨rfl, wordNNN_of_fieldK hk⟩
  · exact Option.some.inj h ▸ ⟨rfl, wordNNN_of_fieldK hk⟩
  · exact Option.some.inj h ▸ ⟨rfl, wordXKK_of_fieldK hk⟩
  · exact Option.some.inj h ▸ ⟨rfl, wordXKK_of_fieldK hk⟩
  · exact wordXYN_of_fieldK hk ▸ decodeLowNibbleZero_hasWord (word := wordXYN 0x5#4 (fieldX w) (fieldY w)) ⟨rfl, rfl⟩ h
  · exact Option.some.inj h ▸ ⟨rfl, wordXKK_of_fieldK hk⟩
  · exact Option.some.inj h ▸ ⟨rfl, wordXKK_of_fieldK hk⟩
  · exact wordXYN_of_fieldK hk ▸ decodeFamily8_hasWord h
  · exact wordXYN_of_fieldK hk ▸ decodeLowNibbleZero_hasWord (word := wordXYN 0x9#4 (fieldX w) (fieldY w)) ⟨rfl, rfl⟩ h
  · exact Option.some.inj h ▸ ⟨rfl, wordNNN_of_fieldK hk⟩
  · exact Option.some.inj h ▸ ⟨beq_iff_eq.2 (fieldX_eq_top w), wordNNN_of_fieldK hk⟩
  · exact Option.some.inj h ▸ ⟨rfl, wordXKK_of_fieldK hk⟩
  · exact Option.some.inj h ▸ ⟨rfl, wordXYN_of_fieldK hk⟩
  · exact wordXKK_of_fieldK hk ▸ decodeFamilyE_hasWord h
  · exact wordXKK_of_fieldK hk ▸ decodeFamilyF_hasWord h

/-- Settles O2: decoding and rebuilding a word agree in every family, the ignored bits among the fields. -/
theorem encodeInvertsDecode : Obligations.EncodeInvertsDecode := fun _ _ h => decodeWord_hasWord h

/-! ## The reserved words -/

theorem decodeFamily0_eq_none_iff (x : Nibble) (kk : Byte) : decodeFamily0 x kk = none ↔ kk ∉ [0xE0#8, 0xEE#8] := by
  unfold decodeFamily0
  split_ifs <;> simp [*]

theorem decodeFamily8_eq_none_iff (x y : Reg) (n : Nibble) :
    decodeFamily8 x y n = none ↔ n ∈ [0x8#4, 0x9#4, 0xA#4, 0xB#4, 0xC#4, 0xD#4, 0xF#4] := by
  rcases nibble_cases n with rfl | rfl | rfl | rfl | rfl | rfl | rfl | rfl | rfl | rfl | rfl | rfl | rfl | rfl | rfl | rfl <;>
    simp [decodeFamily8]

theorem decodeFamilyE_eq_none_iff (x : Reg) (kk : Byte) : decodeFamilyE x kk = none ↔ kk ∉ [0x9E#8, 0xA1#8] := by
  unfold decodeFamilyE
  split_ifs <;> simp [*]

theorem decodeFamilyF_eq_none_iff (x : Reg) (kk : Byte) :
    decodeFamilyF x kk = none ↔ kk ∉ [0x07#8, 0x0A#8, 0x15#8, 0x18#8, 0x1E#8, 0x29#8, 0x33#8, 0x55#8, 0x65#8] := by
  unfold decodeFamilyF
  split_ifs <;> simp [*]

/-- Settles O3: six families have a sub-key, and each refuses the sub-keys its own rule lists; the other ten refuse none. -/
theorem reservedWordsAreThoseListed : Obligations.ReservedWordsAreThoseListed := by
  intro w
  rw [← decodeFamily0_eq_none_iff (fieldX w), ← decodeFamily8_eq_none_iff (fieldX w) (fieldY w),
    ← decodeFamilyE_eq_none_iff (fieldX w), ← decodeFamilyF_eq_none_iff (fieldX w), decodeWord]
  rcases nibble_cases (fieldK w) with hk | hk | hk | hk | hk | hk | hk | hk | hk | hk | hk | hk | hk | hk | hk | hk <;>
    simp [decodeFields, hk]

/-- Settles O5: the nine words are closed terms, so the decoder's own evaluation answers. -/
theorem wordsFromTheOpcodeMapDecode : Obligations.WordsFromTheOpcodeMapDecode := by
  unfold Obligations.WordsFromTheOpcodeMapDecode; decide

/-! ## The opcode map -/

/-- Every instruction's row is one of R65, and its word matches it. -/
theorem Instr.opcodeRow (i : Instr) : Laws.OpcodeRow.Statement i := by
  cases i
  case cls b => exact Laws.OpcodeRow.cls b
  case ret b => exact Laws.OpcodeRow.ret b
  case jpNnn a => exact Laws.OpcodeRow.jpNnn a
  case callNnn a => exact Laws.OpcodeRow.callNnn a
  case seVxKk x kk => exact Laws.OpcodeRow.seVxKk x kk
  case sneVxKk x kk => exact Laws.OpcodeRow.sneVxKk x kk
  case seVxVy x y => exact Laws.OpcodeRow.seVxVy x y
  case ldVxKk x kk => exact Laws.OpcodeRow.ldVxKk x kk
  case addVxKk x kk => exact Laws.OpcodeRow.addVxKk x kk
  case ldVxVy x y => exact Laws.OpcodeRow.ldVxVy x y
  case orVxVy x y => exact Laws.OpcodeRow.orVxVy x y
  case andVxVy x y => exact Laws.OpcodeRow.andVxVy x y
  case xorVxVy x y => exact Laws.OpcodeRow.xorVxVy x y
  case addVxVy x y => exact Laws.OpcodeRow.addVxVy x y
  case subVxVy x y => exact Laws.OpcodeRow.subVxVy x y
  case shrVx x y => exact Laws.OpcodeRow.shrVx x y
  case subnVxVy x y => exact Laws.OpcodeRow.subnVxVy x y
  case shlVx x y => exact Laws.OpcodeRow.shlVx x y
  case sneVxVy x y => exact Laws.OpcodeRow.sneVxVy x y
  case ldINnn a => exact Laws.OpcodeRow.ldINnn a
  case jpVxNnn x a => exact Laws.OpcodeRow.jpVxNnn x a
  case rndVxKk x kk => exact Laws.OpcodeRow.rndVxKk x kk
  case drwVxVyN x y n => exact Laws.OpcodeRow.drwVxVyN x y n
  case skpVx x => exact Laws.OpcodeRow.skpVx x
  case sknpVx x => exact Laws.OpcodeRow.sknpVx x
  case ldVxDt x => exact Laws.OpcodeRow.ldVxDt x
  case ldVxK x => exact Laws.OpcodeRow.ldVxK x
  case ldDtVx x => exact Laws.OpcodeRow.ldDtVx x
  case ldStVx x => exact Laws.OpcodeRow.ldStVx x
  case addIVx x => exact Laws.OpcodeRow.addIVx x
  case ldFVx x => exact Laws.OpcodeRow.ldFVx x
  case ldBVx x => exact Laws.OpcodeRow.ldBVx x
  case ldMemVx x => exact Laws.OpcodeRow.ldMemVx x
  case ldVxMem x => exact Laws.OpcodeRow.ldVxMem x

/-- Two rows differ in a bit that both fix (R65). -/
abbrev RowsDisjoint (r q : Word × Word) : Prop := (r.2 ^^^ q.2) &&& r.1 &&& q.1 ≠ 0#16

theorem RowsDisjoint.symm {r q : Word × Word} (h : RowsDisjoint r q) : RowsDisjoint q r := by
  rwa [RowsDisjoint, BitVec.xor_comm, BitVec.and_assoc, BitVec.and_comm q.1, ← BitVec.and_assoc]

theorem opcodeMap_disjoint : opcodeMap.Pairwise RowsDisjoint := by decide

/-- A word matches one row at most. -/
theorem opcodeMap_row_unique {w : Word} {r q : Word × Word} (hr : r ∈ opcodeMap) (hq : q ∈ opcodeMap)
    (hwr : w &&& r.1 = r.2) (hwq : w &&& q.1 = q.2) : r = q := by
  by_contra hne
  have hsymm : Std.Symm RowsDisjoint := ⟨fun _ _ => RowsDisjoint.symm⟩
  exact opcodeMap_disjoint.forall hr hq hne (rows_agree hwr hwq)

/-- Every word that matches the row is an instruction. -/
def RowDecodes (row : Word × Word) : Prop := ∀ w : Word, w &&& row.1 = row.2 → ∃ i, decodeWord w = some i

theorem rowDecodes_of_family (k : Nibble) {i : Reg → Reg → Nibble → Byte → Addr → Instr}
    (h : ∀ x y n kk nnn, decodeFields k x y n kk nnn = some (i x y n kk nnn)) :
    RowDecodes (wordNNN 0xF#4 0#12, wordNNN k 0#12) := by
  intro w hw
  obtain rfl := (matches_family_iff w k).1 hw
  exact ⟨_, h _ _ _ _ _⟩

theorem rowDecodes_of_low_nibble (k n : Nibble) {i : Reg → Reg → Instr}
    (h : ∀ x y kk nnn, decodeFields k x y n kk nnn = some (i x y)) :
    RowDecodes (wordXYN 0xF#4 0#4 0#4 0xF#4, wordXYN k 0#4 0#4 n) := by
  intro w hw
  obtain ⟨rfl, rfl⟩ := (matches_low_nibble_iff w k n).1 hw
  exact ⟨_, h _ _ _ _⟩

theorem rowDecodes_of_low_byte (k : Nibble) (kk : Byte) {i : Reg → Instr}
    (h : ∀ x y n nnn, decodeFields k x y n kk nnn = some (i x)) :
    RowDecodes (wordXKK 0xF#4 0#4 0xFF#8, wordXKK k 0#4 kk) := by
  intro w hw
  obtain ⟨rfl, rfl⟩ := (matches_low_byte_iff w k kk).1 hw
  exact ⟨_, h _ _ _ _⟩

/-- The dispatch finds an instruction in each row from the bits the row fixes (R64, R65). -/
theorem opcodeMap_rowDecodes : opcodeMap.Forall RowDecodes :=
  ⟨rowDecodes_of_low_byte 0x0#4 0xE0#8 fun _ _ _ _ => rfl,
    rowDecodes_of_low_byte 0x0#4 0xEE#8 fun _ _ _ _ => rfl,
    rowDecodes_of_family 0x1#4 fun _ _ _ _ _ => rfl,
    rowDecodes_of_family 0x2#4 fun _ _ _ _ _ => rfl,
    rowDecodes_of_family 0x3#4 fun _ _ _ _ _ => rfl,
    rowDecodes_of_family 0x4#4 fun _ _ _ _ _ => rfl,
    rowDecodes_of_low_nibble 0x5#4 0x0#4 fun _ _ _ _ => rfl,
    rowDecodes_of_family 0x6#4 fun _ _ _ _ _ => rfl,
    rowDecodes_of_family 0x7#4 fun _ _ _ _ _ => rfl,
    rowDecodes_of_low_nibble 0x8#4 0x0#4 fun _ _ _ _ => rfl,
    rowDecodes_of_low_nibble 0x8#4 0x1#4 fun _ _ _ _ => rfl,
    rowDecodes_of_low_nibble 0x8#4 0x2#4 fun _ _ _ _ => rfl,
    rowDecodes_of_low_nibble 0x8#4 0x3#4 fun _ _ _ _ => rfl,
    rowDecodes_of_low_nibble 0x8#4 0x4#4 fun _ _ _ _ => rfl,
    rowDecodes_of_low_nibble 0x8#4 0x5#4 fun _ _ _ _ => rfl,
    rowDecodes_of_low_nibble 0x8#4 0x6#4 fun _ _ _ _ => rfl,
    rowDecodes_of_low_nibble 0x8#4 0x7#4 fun _ _ _ _ => rfl,
    rowDecodes_of_low_nibble 0x8#4 0xE#4 fun _ _ _ _ => rfl,
    rowDecodes_of_low_nibble 0x9#4 0x0#4 fun _ _ _ _ => rfl,
    rowDecodes_of_family 0xA#4 fun _ _ _ _ _ => rfl,
    rowDecodes_of_family 0xB#4 fun _ _ _ _ _ => rfl,
    rowDecodes_of_family 0xC#4 fun _ _ _ _ _ => rfl,
    rowDecodes_of_family 0xD#4 fun _ _ _ _ _ => rfl,
    rowDecodes_of_low_byte 0xE#4 0x9E#8 fun _ _ _ _ => rfl,
    rowDecodes_of_low_byte 0xE#4 0xA1#8 fun _ _ _ _ => rfl,
    rowDecodes_of_low_byte 0xF#4 0x07#8 fun _ _ _ _ => rfl,
    rowDecodes_of_low_byte 0xF#4 0x0A#8 fun _ _ _ _ => rfl,
    rowDecodes_of_low_byte 0xF#4 0x15#8 fun _ _ _ _ => rfl,
    rowDecodes_of_low_byte 0xF#4 0x18#8 fun _ _ _ _ => rfl,
    rowDecodes_of_low_byte 0xF#4 0x1E#8 fun _ _ _ _ => rfl,
    rowDecodes_of_low_byte 0xF#4 0x29#8 fun _ _ _ _ => rfl,
    rowDecodes_of_low_byte 0xF#4 0x33#8 fun _ _ _ _ => rfl,
    rowDecodes_of_low_byte 0xF#4 0x55#8 fun _ _ _ _ => rfl,
    rowDecodes_of_low_byte 0xF#4 0x65#8 fun _ _ _ _ => rfl⟩

/-- Settles O4: the word of what is decoded is the word itself, so it matches that instruction's row; no word matches two rows;
and each row fixes the family and the sub-key, so a word that matches it decodes. -/
theorem decoderFollowsOpcodeMap : Obligations.DecoderFollowsOpcodeMap := by
  intro w
  refine ⟨fun i hi => ?own, fun ⟨row, hmem, hmatch⟩ => List.forall_iff_forall_mem.1 opcodeMap_rowDecodes row hmem w hmatch⟩
  case own =>
    obtain ⟨-, rfl⟩ := decodeWord_hasWord hi
    obtain ⟨hmem, hmatch⟩ := i.opcodeRow
    exact ⟨hmem, hmatch, fun row hrow hw => opcodeMap_row_unique hrow hmem hw hmatch⟩

end Sys2Proof
end

section
/-! SUPPORT. What an instruction can write, and when it raises which fault: said once for all 34 meanings (spec 10_state.md,
60_exceptions.md R161 to R168). -/

namespace Sys2Proof

namespace Machine

/-- The fields of State, the registers one by one. -/
inductive StateField where
  | reg (q : Reg)
  | index
  | pc
  | stack
  | mem
  | disp
  | dirty
  | delay
  | sound
  | keyCur
  | keyPrev
  | keyTransition
  | fault
  | rndArg
  | draws
  | stackDepth

/-- A field holds in `t` what it holds in `s`. -/
def SameField (s t : State) : StateField → Prop
  | .reg q => t.reg q = s.reg q
  | .index => t.i = s.i
  | .pc => t.pc = s.pc
  | .stack => t.stack = s.stack
  | .mem => t.mem = s.mem
  | .disp => t.disp = s.disp
  | .dirty => t.needsRedraw = s.needsRedraw
  | .delay => t.dt = s.dt
  | .sound => t.st = s.st
  | .keyCur => t.keyCur = s.keyCur
  | .keyPrev => t.keyPrev = s.keyPrev
  | .keyTransition => t.keyTransition = s.keyTransition
  | .fault => t.fault = s.fault
  | .rndArg => t.rndArg = s.rndArg
  | .draws => t.draws = s.draws
  | .stackDepth => t.stackDepth = s.stackDepth

end Machine

open Machine

/-- The writers of each field (R10 to R21; pc after its fetch). -/
def Instr.writes (i : Instr) : StateField → Prop
  | .reg q => i.writesReg q
  | .index => (∃ nnn, i = .ldINnn nnn) ∨ (∃ x, i = .addIVx x) ∨ ∃ x, i = .ldFVx x
  | .pc =>
    (∃ x kk, i = .seVxKk x kk) ∨ (∃ x kk, i = .sneVxKk x kk) ∨ (∃ x y, i = .seVxVy x y) ∨ (∃ x y, i = .sneVxVy x y) ∨
      (∃ x, i = .skpVx x) ∨ (∃ x, i = .sknpVx x) ∨ (∃ nnn, i = .jpNnn nnn) ∨ (∃ x nnn, i = .jpVxNnn x nnn) ∨
      (∃ nnn, i = .callNnn nnn) ∨ (∃ b, i = .ret b) ∨ ∃ x, i = .ldVxK x
  | .stack => (∃ nnn, i = .callNnn nnn) ∨ ∃ b, i = .ret b
  | .mem => (∃ x, i = .ldBVx x) ∨ ∃ x, i = .ldMemVx x
  | .disp | .dirty => (∃ b, i = .cls b) ∨ ∃ x y n, i = .drwVxVyN x y n
  | .delay => ∃ x, i = .ldDtVx x
  | .sound => ∃ x, i = .ldStVx x
  | .fault =>
    (∃ b, i = .ret b) ∨ (∃ nnn, i = .callNnn nnn) ∨ (∃ x y n, i = .drwVxVyN x y n) ∨ (∃ x, i = .ldBVx x) ∨
      (∃ x, i = .ldMemVx x) ∨ ∃ x, i = .ldVxMem x
  | .rndArg | .draws => ∃ x kk, i = .rndVxKk x kk
  | .keyCur | .keyPrev | .keyTransition | .stackDepth => False

namespace Machine

/-- Every field but those `W` allows is the same. -/
def Keeps (W : StateField → Prop) (s t : State) : Prop := ∀ F, ¬ W F → SameField s t F

/-- The field a part lies in: a byte in memory, a pixel in the grid, any other part is a field itself. -/
def Part.field : Part → StateField
  | .reg r => .reg r
  | .index => .index
  | .pc => .pc
  | .stack => .stack
  | .byte _ => .mem
  | .pixel _ _ => .disp
  | .dirty => .dirty
  | .delay => .delay
  | .sound => .sound
  | .keyCur => .keyCur
  | .keyPrev => .keyPrev
  | .keyTransition => .keyTransition
  | .fault => .fault
  | .rndArg => .rndArg
  | .draws => .draws
  | .stackDepth => .stackDepth

section
variable {W : StateField → Prop} {s t u : State}

/-- A part of a field that is kept is the same. -/
theorem Keeps.sameAt (h : Keeps W s t) {p : Part} (hp : ¬ W p.field) : SameAt s t p := by
  have hsame := h p.field hp
  cases p
  case byte a => exact congrArg (Memory.read · a) hsame
  case pixel px py => exact congrArg (Display.get · px py) hsame
  all_goals exact hsame

theorem SameField.trans {F : StateField} (h : SameField s t F) (k : SameField t u F) : SameField s u F := by
  cases F <;> exact Eq.trans k h

theorem Keeps.trans (h : Keeps W s t) (k : Keeps W t u) : Keeps W s u := fun F hF => (h F hF).trans (k F hF)

theorem Keeps.setReg {x : Reg} {b : Byte} (hx : W (.reg x)) : Keeps W s (s.setReg x b) := by
  intro F hF
  cases F
  case reg q =>
    have hq : q ≠ x := fun h => hF (h ▸ hx)
    exact (State.reg_setReg s x q b).trans (if_neg hq)
  all_goals rfl

theorem Keeps.setRegFlag {x : Reg} {b : Byte} {c : Bool} (hx : W (.reg x)) (hvf : W (.reg VF)) :
    Keeps W s (s.setRegFlag x b c) :=
  (Keeps.setReg hx).trans (Keeps.setReg hvf)

theorem Keeps.setPc {a : Word} (h : W .pc) : Keeps W s (s.setPc a) := by
  intro F hF
  cases F
  case pc => exact absurd h hF
  all_goals rfl

theorem Keeps.skipIf {c : Bool} (h : W .pc) : Keeps W s (s.skipIf c) := by
  rw [State.skipIf_eq]; exact Keeps.setPc h

theorem Keeps.setI {a : Word} (h : W .index) : Keeps W s (s.setI a) := by
  intro F hF
  cases F
  case index => exact absurd h hF
  all_goals rfl

theorem Keeps.setDt {b : Byte} (h : W .delay) : Keeps W s (s.setDt b) := by
  intro F hF
  cases F
  case delay => exact absurd h hF
  all_goals rfl

theorem Keeps.setSt {b : Byte} (h : W .sound) : Keeps W s (s.setSt b) := by
  intro F hF
  cases F
  case sound => exact absurd h hF
  all_goals rfl

theorem Keeps.raise {f : Fault} (h : W .fault) : Keeps W s (s.raise f) := by
  intro F hF
  cases F
  case fault => exact absurd h hF
  all_goals rfl

theorem Keeps.clearDisplay (hd : W .disp) (hf : W .dirty) : Keeps W s s.clearDisplay := by
  intro F hF
  cases F
  case disp => exact absurd hd hF
  case dirty => exact absurd hf hF
  all_goals rfl

theorem Keeps.jumpOnStack {a : Word} {l : List Word} (hp : W .pc) (hs : W .stack) :
    Keeps W s { s with stack := l, pc := a } := by
  intro F hF
  cases F
  case pc => exact absurd hp hF
  case stack => exact absurd hs hF
  all_goals rfl

theorem Keeps.consumeRandom (ha : W .rndArg) (hd : W .draws) : Keeps W s s.consumeRandom := by
  intro F hF
  cases F
  case rndArg => exact absurd ha hF
  case draws => exact absurd hd hF
  all_goals simp [SameField]

theorem Keeps.writeBytes {a : Nat} {bs : List Byte} (h : W .mem) : Keeps W s (s.writeBytes a bs) := by
  intro F hF
  cases F
  case mem => exact absurd h hF
  all_goals simp [SameField]

theorem Keeps.setRegsFrom {bs : List Byte} (hlen : bs.length ≤ 16) (h : ∀ q : Reg, q.toNat < bs.length → W (.reg q)) :
    Keeps W s (s.setRegsFrom 0 bs) := by
  intro F hF
  cases F
  case reg q =>
    have hq : bs.length ≤ q.toNat := Nat.le_of_not_lt fun hlt => hF (h q hlt)
    rw [SameField, State.reg_setRegsFrom s 0 bs (by omega), if_pos (Nat.zero_le _), Nat.sub_zero,
      List.getD_eq_default _ _ hq]
  all_goals simp [SameField]

/-- Drawing keeps all but `V[0xF]`, the grid and the dirty flag (R126). -/
theorem Keeps.of_drawRows {x0 y0 r : Nat} {bs : List Byte} (hx : x0 < Config.dispW) (hvf : W (.reg VF)) (hd : W .disp)
    (hf : W .dirty) : Keeps W s (drawRows x0 y0 s r bs) := by
  obtain ⟨-, hreg, -, ⟨hrest⟩⟩ := drawRows_spec hx y0 s r bs
  intro F hF
  cases F
  case reg q => exact hreg.others q fun h => hF (h ▸ hvf)
  case disp => exact absurd hd hF
  case dirty => exact absurd hf hF
  all_goals rw [hrest, SameField]

/-- A meaning that checks its range keeps what its computation keeps, if it may write the fault status. -/
theorem Keeps.complete_checkRange {count : Nat} (hf : W .fault) (ht : Keeps W s t)
    (h : s.complete (s.checkRange count t) = .next u) : Keeps W s u := by
  rcases State.complete_checkRange_cases h with ⟨-, rfl⟩ | ⟨-, -, rfl⟩
  · exact ht
  · exact Keeps.raise hf

end

theorem anchorCol_lt (b : Byte) : anchorCol b < Config.dispW := Nat.mod_lt _ (by decide)

theorem execRet_keeps {s t : State} {ignored : Nibble} (h : execRet ignored s = .next t) :
    Keeps (Instr.ret ignored).writes s t := by
  cases hstack : s.stack with
  | nil =>
    rw [execRet_underflows hstack] at h
    cases h
    exact Keeps.raise (by simp [Instr.writes])
  | cons a rest =>
    rw [execRet_pops hstack] at h
    cases h
    exact Keeps.jumpOnStack (by simp [Instr.writes]) (by simp [Instr.writes])

theorem execCallNnn_keeps {s t : State} {nnn : Addr} (h : execCallNnn nnn s = .next t) :
    Keeps (Instr.callNnn nnn).writes s t := by
  by_cases hfull : s.StackFull
  · rw [execCallNnn_overflows hfull] at h
    cases h
    exact Keeps.raise (by simp [Instr.writes])
  · rw [execCallNnn_pushes hfull] at h
    cases h
    exact Keeps.jumpOnStack (by simp [Instr.writes]) (by simp [Instr.writes])

/-- No instruction writes a field that has not named it as a writer. -/
theorem exec_keeps {i : Instr} {s t : State} (h : exec i s = .next t) : Keeps i.writes s t := by
  cases i
  case cls => cases h; exact Keeps.clearDisplay (by simp [Instr.writes]) (by simp [Instr.writes])
  case ret => exact execRet_keeps h
  case callNnn => exact execCallNnn_keeps h
  case jpNnn | jpVxNnn => cases h; exact Keeps.setPc (by simp [Instr.writes])
  case seVxKk | sneVxKk | seVxVy | sneVxVy | skpVx | sknpVx => cases h; exact Keeps.skipIf (by simp [Instr.writes])
  case ldINnn | addIVx | ldFVx => cases h; exact Keeps.setI (by simp [Instr.writes])
  case addVxVy | subVxVy | shrVx | subnVxVy | shlVx => cases h; exact Keeps.setRegFlag (.inl rfl) (.inr rfl)
  case rndVxKk =>
    cases h
    exact (Keeps.consumeRandom (by simp [Instr.writes]) (by simp [Instr.writes])).trans (Keeps.setReg rfl)
  case drwVxVyN x y n =>
    have hflag : Keeps (Instr.drwVxVyN x y n).writes s (s.setFlag false) := Keeps.setReg rfl
    refine Keeps.complete_checkRange (by simp [Instr.writes]) (hflag.trans ?_) h
    exact Keeps.of_drawRows (anchorCol_lt _) rfl (by simp [Instr.writes]) (by simp [Instr.writes])
  case ldVxK x =>
    cases h
    split
    · exact Keeps.setReg rfl
    · exact Keeps.setPc (by simp [Instr.writes])
  case ldDtVx => cases h; exact Keeps.setDt (by simp [Instr.writes])
  case ldStVx => cases h; exact Keeps.setSt (by simp [Instr.writes])
  case ldBVx | ldMemVx =>
    exact Keeps.complete_checkRange (by simp [Instr.writes]) (Keeps.writeBytes (by simp [Instr.writes])) h
  case ldVxMem x =>
    have hx := x.isLt
    have hlen : (s.bytesAtI (x.toNat + 1)).length = x.toNat + 1 := State.bytesAtI_length s _
    refine Keeps.complete_checkRange (by simp [Instr.writes]) (Keeps.setRegsFrom (by omega) fun q hq => ?_) h
    rw [hlen] at hq
    exact Nat.le_of_lt_succ hq
  all_goals cases h; exact Keeps.setReg rfl

/-! ## Faults (R161 to R165, R168) -/

/-- The faults of R161 that an instruction raises, each with its condition. -/
inductive Raises (s : State) : Instr → Fault → Prop
  | underflow (b : Nibble) (h : s.stack = []) : Raises s (.ret b) .stackUnderflow
  | overflow (nnn : Addr) (h : s.StackFull) : Raises s (.callNnn nnn) .stackOverflow
  | range (i : Instr) (hpos : 0 < i.accessLength) (hout : Config.memSize < s.i.toNat + i.accessLength) :
    Raises s i (.memoryOutOfRange s.firstOutOfRange)

/-- No instruction raises two faults in one state. -/
theorem Raises.unique {s : State} {i : Instr} {f g : Fault} (hf : Raises s i f) (hg : Raises s i g) : f = g := by
  cases hf with
  | underflow b _ => cases hg with
    | underflow => rfl
    | range _ hpos => exact absurd hpos (Nat.lt_irrefl 0)
  | overflow nnn _ => cases hg with
    | overflow => rfl
    | range _ hpos => exact absurd hpos (Nat.lt_irrefl 0)
  | range i hpos _ => cases hg with
    | underflow | overflow => exact absurd hpos (Nat.lt_irrefl 0)
    | range => rfl

/-- What an instruction leaves of the fault status: it takes the fault whose condition it meets, with everything else as it
was, or it meets none and leaves the status. -/
def RaisesExactly (s : State) (i : Instr) (t : State) : Prop :=
  (∃ f, Raises s i f ∧ t = s.raise f) ∨ ((∀ f, ¬ Raises s i f) ∧ t.fault = s.fault)

theorem execRet_raises {s t : State} {ignored : Nibble} (h : execRet ignored s = .next t) :
    RaisesExactly s (.ret ignored) t := by
  cases hstack : s.stack with
  | nil =>
    rw [execRet_underflows hstack] at h
    cases h
    exact .inl ⟨_, .underflow ignored hstack, rfl⟩
  | cons a rest =>
    rw [execRet_pops hstack] at h
    cases h
    refine .inr ⟨?_, rfl⟩
    rintro f (⟨_, hnil⟩ | _ | ⟨_, hpos⟩)
    · exact List.cons_ne_nil _ _ (hstack.symm.trans hnil)
    · exact Nat.lt_irrefl 0 hpos

theorem execCallNnn_raises {s t : State} {nnn : Addr} (h : execCallNnn nnn s = .next t) :
    RaisesExactly s (.callNnn nnn) t := by
  by_cases hfull : s.StackFull
  · rw [execCallNnn_overflows hfull] at h
    cases h
    exact .inl ⟨_, .overflow nnn hfull, rfl⟩
  · rw [execCallNnn_pushes hfull] at h
    cases h
    refine .inr ⟨?_, rfl⟩
    rintro f (_ | ⟨_, hfull'⟩ | ⟨_, hpos⟩)
    · exact hfull hfull'
    · exact Nat.lt_irrefl 0 hpos

/-- RET and CALL apart, an instruction raises a fault only by its access. -/
theorem not_raises_of_in_range {s : State} {i : Instr} (hret : ∀ b, i ≠ .ret b) (hcall : ∀ nnn, i ≠ .callNnn nnn)
    (hin : s.i.toNat + i.accessLength ≤ Config.memSize ∨ i.accessLength = 0) (f : Fault) : ¬ Raises s i f := by
  rintro (⟨b, _⟩ | ⟨nnn, _⟩ | ⟨_, hpos, hout⟩)
  · exact hret b rfl
  · exact hcall nnn rfl
  · omega

/-- A meaning that checks the range of its instruction raises the fault of that range. -/
theorem complete_checkRange_raises {s t u : State} {i : Instr} (hret : ∀ b, i ≠ .ret b) (hcall : ∀ nnn, i ≠ .callNnn nnn)
    (ht : t.fault = s.fault) (h : s.complete (s.checkRange i.accessLength t) = .next u) : RaisesExactly s i u := by
  rcases State.complete_checkRange_cases h with ⟨hin, rfl⟩ | ⟨hout, hpos, rfl⟩
  · exact .inr ⟨not_raises_of_in_range hret hcall hin, ht⟩
  · exact .inl ⟨_, .range i hpos hout, rfl⟩

/-- A draw leaves the fault status. -/
theorem drawRows_fault (b : Byte) (y0 r : Nat) (s : State) (bs : List Byte) :
    (drawRows (anchorCol b) y0 s r bs).fault = s.fault := by
  obtain ⟨-, -, -, ⟨hrest⟩⟩ := drawRows_spec (anchorCol_lt b) y0 s r bs
  rw [hrest]

/-- Every instruction raises exactly the faults whose conditions it meets. -/
theorem exec_raises {i : Instr} {s t : State} (h : exec i s = .next t) : RaisesExactly s i t := by
  cases i
  case ret => exact execRet_raises h
  case callNnn => exact execCallNnn_raises h
  case drwVxVyN x y n =>
    exact complete_checkRange_raises (i := .drwVxVyN x y n) (by simp) (by simp)
      (drawRows_fault _ _ _ (s.setFlag false) _) h
  case ldBVx x => exact complete_checkRange_raises (i := .ldBVx x) (by simp) (by simp) (State.writeBytes_fault _ _ _) h
  case ldMemVx x =>
    exact complete_checkRange_raises (i := .ldMemVx x) (by simp) (by simp) (State.writeBytes_fault _ _ _) h
  case ldVxMem x =>
    exact complete_checkRange_raises (i := .ldVxMem x) (by simp) (by simp) (State.setRegsFrom_fault _ _ _) h
  all_goals
    exact .inr ⟨not_raises_of_in_range (by simp) (by simp) (.inr rfl), exec_keeps h .fault (by simp [Instr.writes])⟩

/-- From a running machine, the fault status after an instruction is the fault it raises. -/
theorem exec_fault_iff {i : Instr} {s t : State} (hrun : s.Running) (h : exec i s = .next t) (f : Fault) :
    t.fault = some f ↔ Raises s i f := by
  rcases exec_raises h with ⟨g, hg, rfl⟩ | ⟨hnone, ht⟩
  · rw [State.raise_fault, Option.some_inj]
    exact ⟨fun e => e ▸ hg, hg.unique⟩
  · rw [ht, hrun]
    exact ⟨nofun, fun hf => absurd hf (hnone f)⟩

/-- A state with a fault that an instruction raised is the state it began in, the status apart (R168). -/
theorem exec_fault_eq {i : Instr} {s t : State} {f : Fault} (hrun : s.Running) (h : exec i s = .next t)
    (hf : t.fault = some f) : t = s.raise f := by
  rcases exec_raises h with ⟨g, -, rfl⟩ | ⟨-, ht⟩
  · rw [State.raise_fault, Option.some_inj] at hf
    rw [hf]
  · rw [ht, hrun] at hf
    cases hf

/-! ## Every meaning answers a next state -/

theorem State.complete_next (s : State) (r : Except Fault State) : ∃ t, s.complete r = .next t := by
  cases r
  case ok t => exact ⟨t, rfl⟩
  case error f => exact ⟨s.raise f, rfl⟩

theorem exec_next (i : Instr) (s : State) : ∃ t, exec i s = .next t := by
  cases i
  case ret | callNnn | drwVxVyN | ldBVx | ldMemVx | ldVxMem => exact State.complete_next s _
  all_goals exact ⟨_, rfl⟩

end Machine

end Sys2Proof
end

section
/-! SUPPORT. Proofs for one STEP (spec 00_scope.md R4, 20_memory.md R44, 60_exceptions.md section 1 and 2). -/

namespace Sys2Proof.Machine

/-! ## What a STEP fetches (R44, R45) -/

theorem decodeBytes_pair_eq_instr_iff (a b : Byte) (i : Instr) :
    decodeBytes [a, b] = .instr i [] ↔ decodeWord (wordOfBytes a b) = some i := by
  simp only [decodeBytes]
  cases decodeWord (wordOfBytes a b) <;> simp

theorem decodeBytes_pair_eq_reserved_iff (a b : Byte) (w : Word) :
    decodeBytes [a, b] = .reserved w [] ↔ decodeWord (wordOfBytes a b) = none ∧ wordOfBytes a b = w := by
  simp only [decodeBytes]
  cases decodeWord (wordOfBytes a b) <;> simp

theorem State.fetches_instr_iff (s : State) (i : Instr) :
    s.Fetches (.instr i []) ↔ s.Running ∧ s.pc.toNat ≤ Config.lastFetch ∧ decodeWord s.wordAtPc = some i :=
  and_congr_right' (and_congr_right' (decodeBytes_pair_eq_instr_iff _ _ i))

theorem State.fetches_reserved_iff (s : State) (w : Word) :
    s.Fetches (.reserved w []) ↔
      s.Running ∧ s.pc.toNat ≤ Config.lastFetch ∧ decodeWord s.wordAtPc = none ∧ s.wordAtPc = w :=
  and_congr_right' (and_congr_right' (decodeBytes_pair_eq_reserved_iff _ _ w))

/-! ## A STEP, by what it fetches -/

theorem step_of_fetches_instr {s : State} {i : Instr} (h : s.Fetches (.instr i [])) :
    step s = exec i (s.setPc (s.pc + 2#16)) := by
  obtain ⟨hrun, hpc, hdec⟩ := (s.fetches_instr_iff i).1 h
  rw [step_fetched hrun hpc, execWord, hdec]

theorem step_of_fetches_reserved {s : State} {w : Word} (h : s.Fetches (.reserved w [])) :
    step s = .next (s.setPc (s.pc + 2#16)) := by
  obtain ⟨hrun, hpc, hdec, -⟩ := (s.fetches_reserved_iff w).1 h
  rw [step_fetched hrun hpc, execWord, hdec]
  rfl

theorem step_of_pc_out_of_range {s : State} (hrun : s.Running) (hpc : Config.lastFetch < s.pc.toNat) :
    step s = .next (s.raise (.fetchOutOfRange s.pc)) := by
  unfold step
  rw [hrun, State.fetch_raised hpc]

theorem step_of_halted {s : State} {f : Fault} (h : s.fault = some f) : step s = .fault f := by
  unfold step
  rw [h]

/-- A running machine either cannot fetch, or fetches a reserved word or an instruction. -/
theorem State.fetches_cases {s : State} (hrun : s.Running) :
    Config.lastFetch < s.pc.toNat ∨ s.Fetches (.reserved s.wordAtPc []) ∨ ∃ i, s.Fetches (.instr i []) := by
  rcases Nat.lt_or_ge Config.lastFetch s.pc.toNat with hpc | hpc
  · exact .inl hpc
  · cases hdec : decodeWord s.wordAtPc with
    | none => exact .inr (.inl ((s.fetches_reserved_iff _).2 ⟨hrun, hpc, hdec, rfl⟩))
    | some i => exact .inr (.inr ⟨i, (s.fetches_instr_iff i).2 ⟨hrun, hpc, hdec⟩⟩)

theorem step_next {s : State} (hrun : s.Running) : ∃ t, step s = .next t := by
  rcases s.fetches_cases hrun with hpc | hres | ⟨i, hi⟩
  · exact ⟨_, step_of_pc_out_of_range hrun hpc⟩
  · exact ⟨_, step_of_fetches_reserved hres⟩
  · rw [step_of_fetches_instr hi]
    exact exec_next i _

/-! ## The answer of the STEP command (R167) -/

theorem State.unrecognizedWord_of_reserved {s : State} {w : Word} (h : s.Fetches (.reserved w [])) :
    s.unrecognizedWord = some w := by
  obtain ⟨-, hpc, hdec, rfl⟩ := (s.fetches_reserved_iff w).1 h
  exact if_pos ⟨hpc, hdec⟩

theorem State.unrecognizedWord_of_instr {s : State} {i : Instr} (h : s.Fetches (.instr i [])) :
    s.unrecognizedWord = none := by
  obtain ⟨-, -, hdec⟩ := (s.fetches_instr_iff i).1 h
  exact if_neg fun ⟨_, hnone⟩ => nomatch hdec.symm.trans hnone

theorem stepResponse_of_fault {s t : State} {f : Fault} (h : t.fault = some f) : stepResponse s t = .fault f := by
  unfold stepResponse
  rw [h]

theorem stepResponse_of_reserved {s t : State} {w : Word} (ht : t.fault = none) (h : s.Fetches (.reserved w [])) :
    stepResponse s t = .okUnrecognized w := by
  unfold stepResponse
  rw [ht, State.unrecognizedWord_of_reserved h]

theorem stepResponse_of_instr {s t : State} {i : Instr} (ht : t.fault = none) (h : s.Fetches (.instr i [])) :
    stepResponse s t = .ok := by
  unfold stepResponse
  rw [ht, State.unrecognizedWord_of_instr h]

/-! ## The statements -/

/-- Settles O6: the bytes at pc are the word a STEP fetches, and it executes what they decode to. -/
theorem stepRunsDecodedInstruction : Obligations.StepRunsDecodedInstruction := fun _ _ h => step_of_fetches_instr h

/-- The STEP command passes over a reserved word as `step` does, and drops its argument. -/
theorem State.stepCommand_reserved {s : State} {w : Word} (h : s.Fetches (.reserved w [])) (rnd : Byte) :
    s.stepCommand rnd = .next (.okUnrecognized w, { s.setPc (s.pc + 2#16) with rndArg := none }) := by
  have hstep : step { s with rndArg := some rnd } = .next { s.setPc (s.pc + 2#16) with rndArg := some rnd } :=
    step_of_fetches_reserved (s := { s with rndArg := some rnd }) h
  have hresp : stepResponse s { s.setPc (s.pc + 2#16) with rndArg := some rnd } = .okUnrecognized w :=
    stepResponse_of_reserved h.1 h
  rw [State.stepCommand_next hstep, hresp]

theorem OnlyChanges.setPc_rndArg (s : State) (a : Word) (r : Option Byte) :
    OnlyChanges s { s.setPc a with rndArg := r } (fun p => p = .pc ∨ p = .rndArg) := by
  intro p hp
  cases p
  case pc => exact absurd (.inl rfl) hp
  case rndArg => exact absurd (.inr rfl) hp
  all_goals rfl

/-- Settles O7: the no-op is one update of pc, and the word that the answer names is the one the fetch read. -/
theorem reservedWordIsNoOp : Obligations.ReservedWordIsNoOp := by
  intro s w h
  refine ⟨⟨_, step_of_fetches_reserved h, rfl, OnlyChanges.setPc s _⟩, fun rnd => ?command⟩
  case command => exact ⟨_, State.stepCommand_reserved h rnd, rfl, rfl, OnlyChanges.setPc_rndArg s _ _⟩

/-- Settles O8: above 4094 the fetch itself raises the fault; at a legal pc a reserved word leaves the status and no
instruction has that fault among its own. -/
theorem fetchFaultsExactlyAbove4094 : Obligations.FetchFaultsExactlyAbove4094 := by
  refine ⟨fun s hrun hpc => ?above, fun s t hrun hpc hstep a hf => ?legal⟩
  case above => exact ⟨_, step_of_pc_out_of_range hrun hpc, rfl, rfl, OnlyChanges.raise s _⟩
  case legal =>
    obtain ⟨-, ⟨hlt, -⟩ | ⟨-, -, rfl⟩ | ⟨-, i, -, hexec⟩⟩ := step_cases hstep
    · exact absurd hpc (Nat.not_le.2 hlt)
    · exact nomatch hrun.symm.trans hf
    · exact nomatch (exec_fault_iff (s := s.setPc (s.pc + 2#16)) hrun hexec _).1 hf

/-- Settles O9: the recorded fault is looked at before anything is fetched. -/
theorem haltedMachineOnlyReportsItsFault : Obligations.HaltedMachineOnlyReportsItsFault := by
  intro s f h
  refine ⟨step_of_halted h, State.stepCommand_halted h, fun t ht => ?_⟩
  rw [step_of_halted h] at ht
  cases ht

/-- Settles O10: each meaning answers a next state, so a machine that runs has one whatever its fetch gives; a halted machine
answers its fault. -/
theorem runningMachineAlwaysSteps : Obligations.RunningMachineAlwaysSteps :=
  ⟨exec_next, fun _ => ⟨step_next, fun ⟨_, h⟩ => (step_cases h).1⟩⟩

/-- Settles O11: the fetch's fault is recorded in the state itself, an instruction's in the one its meaning began in. -/
theorem faultsArePrecise : Obligations.FaultsArePrecise := by
  intro s t f hstep hf
  obtain ⟨hrun, ⟨-, rfl⟩ | ⟨-, -, rfl⟩ | ⟨hpc, i, -, hexec⟩⟩ := step_cases hstep
  · obtain rfl := Option.some.inj hf
    exact .inl ⟨rfl, rfl⟩
  · exact nomatch hrun.symm.trans hf
  · exact .inr ⟨exec_fault_eq (s := s.setPc (s.pc + 2#16)) hrun hexec hf, hpc⟩

theorem State.eq_firstOutOfRange_iff (s : State) (a : Word) :
    a = s.firstOutOfRange ↔ a.toNat = max s.i.toNat Config.memSize := by
  rw [← BitVec.toNat_inj, State.firstOutOfRange_toNat]

theorem raises_stackUnderflow_iff (s : State) (i : Instr) :
    Raises s i .stackUnderflow ↔ (∃ b, i = .ret b) ∧ s.stack = [] := by
  constructor
  · rintro ⟨b, h⟩
    exact ⟨⟨b, rfl⟩, h⟩
  · rintro ⟨⟨b, rfl⟩, h⟩
    exact .underflow b h

theorem raises_stackOverflow_iff (s : State) (i : Instr) :
    Raises s i .stackOverflow ↔ (∃ nnn, i = .callNnn nnn) ∧ s.StackFull := by
  constructor
  · rintro (_ | ⟨nnn, h⟩)
    exact ⟨⟨nnn, rfl⟩, h⟩
  · rintro ⟨⟨nnn, rfl⟩, h⟩
    exact .overflow nnn h

theorem raises_memoryOutOfRange_iff (s : State) (i : Instr) (a : Word) :
    Raises s i (.memoryOutOfRange a) ↔
      0 < i.accessLength ∧ Config.memSize < s.i.toNat + i.accessLength ∧ a.toNat = max s.i.toNat Config.memSize := by
  rw [← State.eq_firstOutOfRange_iff]
  constructor
  · rintro ⟨⟩
    exact ⟨‹_›, ‹_›, rfl⟩
  · rintro ⟨hpos, hout, rfl⟩
    exact .range i hpos hout

/-- Settles O12: from a running machine the status is the fault raised, so each clause is the condition of that fault. -/
theorem eachFaultHasItsCause : Obligations.EachFaultHasItsCause := by
  intro i s t hrun h
  simp only [exec_fault_iff hrun h, ne_eq]
  exact ⟨raises_stackUnderflow_iff s i, raises_stackOverflow_iff s i, raises_memoryOutOfRange_iff s i, nofun⟩

/-- Settles O39: such an access meets the condition of its fault, which leaves all but the status. -/
theorem rangeFaultChangesNothingElse : Obligations.RangeFaultChangesNothingElse := by
  intro i s hpos hout
  obtain ⟨t, ht⟩ := exec_next i s
  have hraise : Raises s i _ := .range i hpos hout
  obtain ⟨f, hf, rfl⟩ | ⟨hnone, -⟩ := exec_raises ht
  · obtain rfl := hf.unique hraise
    exact ⟨_, ht, ⟨_, rfl, s.firstOutOfRange_toNat⟩, OnlyChanges.raise s _⟩
  · exact absurd hraise (hnone _)

/-- Settles O40: a field whose writers do not include the instruction is kept. -/
theorem onlyTheNamedInstructionsWrite : Obligations.OnlyTheNamedInstructionsWrite := by
  intro i s t h
  have keeps := exec_keeps h
  refine ⟨?mem, ?index, ?pc, ?stack, ?fault, ?display, ?delay, ?sound, keeps .keyCur id, keeps .keyPrev id,
    keeps .keyTransition id, keeps .stackDepth id, ?random⟩
  case mem => exact fun h1 h2 => keeps .mem (by simp [Instr.writes, h1, h2])
  case index => exact fun h1 h2 h3 => keeps .index (by simp [Instr.writes, h1, h2, h3])
  case pc =>
    intro h1 h2 h3 h4 h5 h6 h7 h8 h9 h10 h11
    exact keeps .pc (by simp [Instr.writes, h1, h2, h3, h4, h5, h6, h7, h8, h9, h10, h11])
  case stack => exact fun h1 h2 => keeps .stack (by simp [Instr.writes, h1, h2])
  case fault =>
    intro h1 h2 h3 h4 h5 h6
    exact keeps .fault (by simp [Instr.writes, h1, h2, h3, h4, h5, h6])
  case display =>
    exact fun h1 h2 => ⟨keeps .disp (by simp [Instr.writes, h1, h2]), keeps .dirty (by simp [Instr.writes, h1, h2])⟩
  case delay => exact fun h1 => keeps .delay (by simp [Instr.writes, h1])
  case sound => exact fun h1 => keeps .sound (by simp [Instr.writes, h1])
  case random => exact fun h1 => ⟨keeps .rndArg (by simp [Instr.writes, h1]), keeps .draws (by simp [Instr.writes, h1])⟩

/-- Settles O41: the registers are fields too, and their writers are those of R11 and R12. -/
theorem onlyDestinationRegistersChange : Obligations.OnlyDestinationRegistersChange :=
  fun _ _ _ h q hq => exec_keeps h (.reg q) hq

end Sys2Proof.Machine
end

section
/-! SUPPORT. Proofs for calls and returns, register and key skips, ALU, jump with offset, random and index arithmetic (spec
40_family_0_to_2.md to 46_family_F_misc.md). -/

namespace Sys2Proof

/-! ## The word formulas (R61, R65) -/

/-- Decoding the word formula of format XY, the row's fixed bits plus the two registers in their places, dispatches on the
family digit with the registers and the fixed low nibble as operands (R62, R64). -/
theorem decodeWord_sumXY (k : Nibble) (x y : Reg) (n : Nibble) :
    decodeWord (wordXYN k 0#4 0#4 n + (x.zeroExtend 16 <<< 8) + (y.zeroExtend 16 <<< 4)) =
      decodeFields k x y n (fieldKK (wordXYN k x y n)) (fieldNNN (wordXYN k x y n)) := by
  rw [← wordXY_eq_add, decodeWord_wordXYN]

/-- The same for format XYN, whose low nibble is an operand too. -/
theorem decodeWord_sumXYN (k : Nibble) (x y : Reg) (n : Nibble) :
    decodeWord (wordXYN k 0#4 0#4 0#4 + (x.zeroExtend 16 <<< 8) + (y.zeroExtend 16 <<< 4) + n.zeroExtend 16) =
      decodeFields k x y n (fieldKK (wordXYN k x y n)) (fieldNNN (wordXYN k x y n)) := by
  rw [← wordXYN_eq_add, decodeWord_wordXYN]

theorem decodeWord_cls (b : Nibble) : decodeWord (0x00E0#16 + (b.zeroExtend 16 <<< 8)) = some (.cls b) :=
  decodeWord_sumXS 0x0#4 b 0xE0#8

theorem decodeWord_ret (b : Nibble) : decodeWord (0x00EE#16 + (b.zeroExtend 16 <<< 8)) = some (.ret b) :=
  decodeWord_sumXS 0x0#4 b 0xEE#8

theorem decodeWord_callNnn (nnn : Addr) : decodeWord (0x2000#16 + nnn.zeroExtend 16) = some (.callNnn nnn) := by
  have hword : wordNNN 0x2#4 nnn = 0x2000#16 + nnn.zeroExtend 16 := wordNNN_eq_add 0x2#4 nnn
  rw [← hword, decodeWord_wordNNN]
  rfl

theorem decodeWord_seVxVy (x y : Reg) :
    decodeWord (0x5000#16 + (x.zeroExtend 16 <<< 8) + (y.zeroExtend 16 <<< 4)) = some (.seVxVy x y) :=
  decodeWord_sumXY 0x5#4 x y 0x0#4

theorem decodeWord_sneVxVy (x y : Reg) :
    decodeWord (0x9000#16 + (x.zeroExtend 16 <<< 8) + (y.zeroExtend 16 <<< 4)) = some (.sneVxVy x y) :=
  decodeWord_sumXY 0x9#4 x y 0x0#4

/-- In family 0x5 only the low nibble 0 is an instruction (R67). -/
theorem decodeWord_family5_reserved (x y : Reg) {n : Nibble} (hn : n ≠ 0x0#4) :
    decodeWord (0x5000#16 + (x.zeroExtend 16 <<< 8) + (y.zeroExtend 16 <<< 4) + n.zeroExtend 16) = none :=
  (decodeWord_sumXYN 0x5#4 x y n).trans (if_neg hn)

/-- In family 0x9 only the low nibble 0 is an instruction (R67). -/
theorem decodeWord_family9_reserved (x y : Reg) {n : Nibble} (hn : n ≠ 0x0#4) :
    decodeWord (0x9000#16 + (x.zeroExtend 16 <<< 8) + (y.zeroExtend 16 <<< 4) + n.zeroExtend 16) = none :=
  (decodeWord_sumXYN 0x9#4 x y n).trans (if_neg hn)

/-- Family 0x8: the low nibble selects the operation (R64, R65). -/
theorem decodeWord_family8 (x y : Reg) (n : Nibble) :
    decodeWord (wordXYN 0x8#4 0#4 0#4 n + (x.zeroExtend 16 <<< 8) + (y.zeroExtend 16 <<< 4)) = decodeFamily8 x y n :=
  decodeWord_sumXY 0x8#4 x y n

theorem decodeWord_jpVxNnn (nnn : Addr) :
    decodeWord (0xB000#16 + nnn.zeroExtend 16) = some (.jpVxNnn (nnn.extractLsb' 8 4) nnn) := by
  have hword : wordNNN 0xB#4 nnn = 0xB000#16 + nnn.zeroExtend 16 := wordNNN_eq_add 0xB#4 nnn
  rw [← hword, decodeWord_wordNNN]
  rfl

theorem decodeWord_rndVxKk (x : Reg) (kk : Byte) :
    decodeWord (0xC000#16 + (x.zeroExtend 16 <<< 8) + kk.zeroExtend 16) = some (.rndVxKk x kk) :=
  decodeWord_sumXKK 0xC#4 x kk

theorem decodeWord_drwVxVyN (x y : Reg) (n : Nibble) :
    decodeWord (0xD000#16 + (x.zeroExtend 16 <<< 8) + (y.zeroExtend 16 <<< 4) + n.zeroExtend 16) =
      some (.drwVxVyN x y n) :=
  decodeWord_sumXYN 0xD#4 x y n

theorem decodeWord_skpVx (x : Reg) : decodeWord (0xE09E#16 + (x.zeroExtend 16 <<< 8)) = some (.skpVx x) :=
  decodeWord_sumXS 0xE#4 x 0x9E#8

theorem decodeWord_sknpVx (x : Reg) : decodeWord (0xE0A1#16 + (x.zeroExtend 16 <<< 8)) = some (.sknpVx x) :=
  decodeWord_sumXS 0xE#4 x 0xA1#8

theorem decodeWord_addIVx (x : Reg) : decodeWord (0xF01E#16 + (x.zeroExtend 16 <<< 8)) = some (.addIVx x) :=
  decodeWord_sumXS 0xF#4 x 0x1E#8

theorem decodeWord_ldFVx (x : Reg) : decodeWord (0xF029#16 + (x.zeroExtend 16 <<< 8)) = some (.ldFVx x) :=
  decodeWord_sumXS 0xF#4 x 0x29#8

theorem decodeWord_ldBVx (x : Reg) : decodeWord (0xF033#16 + (x.zeroExtend 16 <<< 8)) = some (.ldBVx x) :=
  decodeWord_sumXS 0xF#4 x 0x33#8

theorem decodeWord_ldMemVx (x : Reg) : decodeWord (0xF055#16 + (x.zeroExtend 16 <<< 8)) = some (.ldMemVx x) :=
  decodeWord_sumXS 0xF#4 x 0x55#8

theorem decodeWord_ldVxMem (x : Reg) : decodeWord (0xF065#16 + (x.zeroExtend 16 <<< 8)) = some (.ldVxMem x) :=
  decodeWord_sumXS 0xF#4 x 0x65#8

namespace Machine

/-! ## Family 0x0 and 0x2 (40_family_0_to_2.md) -/

theorem exec_cls (b : Nibble) (s : State) : exec (.cls b) s = .next s.clearDisplay := rfl

theorem OnlyChanges.clearDisplay (s : State) :
    OnlyChanges s s.clearDisplay (fun p => (∃ px py, p = .pixel px py) ∨ p = .dirty) := by
  intro p hp
  cases p
  case pixel px py => exact absurd (.inl ⟨px, py, rfl⟩) hp
  case dirty => exact absurd (.inr rfl) hp
  all_goals rfl

/-- Settles O13: CLS is the display unit's clear and nothing around it. -/
theorem clsClearsAndMarksDirty : Obligations.ClsClearsAndMarksDirty := fun b s =>
  ⟨decodeWord_cls b, _, exec_cls b s, State.pixel_clearDisplay s, rfl, OnlyChanges.clearDisplay s⟩

/-- A jump that pushes or pops moves pc and the stack alone. -/
theorem OnlyChanges.jumpOnStack (s : State) (a : Word) (l : List Word) :
    OnlyChanges s { s with stack := l, pc := a } (fun p => p = .pc ∨ p = .stack) := by
  intro p hp
  cases p
  case pc => exact absurd (.inl rfl) hp
  case stack => exact absurd (.inr rfl) hp
  all_goals rfl

/-- Settles O14: what RET does is decided by whether the stack holds an address. -/
theorem retPopsOrUnderflows : Obligations.RetPopsOrUnderflows := by
  refine ⟨decodeWord_ret, fun b s a rest hstack => ?pops, fun b s hempty => ?underflows⟩
  case pops => exact ⟨_, execRet_pops hstack b, rfl, rfl, OnlyChanges.jumpOnStack s a rest⟩
  case underflows => exact ⟨_, execRet_underflows hempty b, rfl, OnlyChanges.raise s _⟩

/-- Settles O16: what CALL does is decided by whether the stack is full. -/
theorem callPushesOrOverflows : Obligations.CallPushesOrOverflows := by
  refine ⟨decodeWord_callNnn, fun nnn s hroom => ?pushes, fun nnn s hfull => ?overflows⟩
  case pushes =>
    exact ⟨_, execCallNnn_pushes hroom nnn, addrOperand_toNat nnn, rfl, OnlyChanges.jumpOnStack s _ _⟩
  case overflows => exact ⟨_, execCallNnn_overflows hfull nnn, rfl, OnlyChanges.raise s _⟩

/-- Settles O17: the stack on which RET pops is the one CALL pushed the advanced pc on. -/
theorem retReturnsAfterItsCall : Obligations.RetReturnsAfterItsCall := by
  intro nnn b s t u hroom hcall hstack
  obtain rfl := Host.Outcome.next.inj ((execCallNnn_pushes hroom nnn).symm.trans hcall)
  exact ⟨_, execRet_pops hstack b, rfl, rfl⟩

/-! ## Register skips (R92, R116) and key skips (R136, R137) -/

theorem exec_seVxVy (x y : Reg) (s : State) :
    exec (.seVxVy x y) s = .next (s.setPc (if s.reg x = s.reg y then s.pc + 2#16 else s.pc)) := by
  rw [← State.skipIf_decide]; rfl

theorem exec_sneVxVy (x y : Reg) (s : State) :
    exec (.sneVxVy x y) s = .next (s.setPc (if s.reg x ≠ s.reg y then s.pc + 2#16 else s.pc)) := by
  have hne : decide (s.reg x ≠ s.reg y) = (s.reg x != s.reg y) := decide_not
  rw [← State.skipIf_decide, hne]; rfl

/-- Settles O19: either skip is one update of pc whose value is the condition's branch; another low nibble is no sub-key. -/
theorem skipsOnRegisters : Obligations.SkipsOnRegisters := by
  intro x y s
  refine ⟨decodeWord_seVxVy x y, ?equal, decodeWord_sneVxVy x y, ?differ, fun n hn => ?reserved⟩
  case equal => exact ⟨_, exec_seVxVy x y s, State.setPc_pc s _, OnlyChanges.setPc s _⟩
  case differ => exact ⟨_, exec_sneVxVy x y s, State.setPc_pc s _, OnlyChanges.setPc s _⟩
  case reserved => exact ⟨decodeWord_family5_reserved x y hn, decodeWord_family9_reserved x y hn⟩

/-- The comparison of a register with the latched key is one of numbers, all 8 bits counted (R177, D23). -/
theorem keyIs_eq_decide (s : State) (b : Byte) : s.keyIs b = decide (b.toNat = s.keyCur.toNat) := by
  rw [Bool.eq_iff_iff, keyIs_iff, decide_eq_true_eq]

theorem exec_skpVx (x : Reg) (s : State) :
    exec (.skpVx x) s = .next (s.setPc (if (s.reg x).toNat = s.keyCur.toNat then s.pc + 2#16 else s.pc)) := by
  rw [← State.skipIf_decide, ← keyIs_eq_decide]; rfl

theorem exec_sknpVx (x : Reg) (s : State) :
    exec (.sknpVx x) s = .next (s.setPc (if (s.reg x).toNat ≠ s.keyCur.toNat then s.pc + 2#16 else s.pc)) := by
  have hne : decide ((s.reg x).toNat ≠ s.keyCur.toNat) = !s.keyIs (s.reg x) := by
    rw [keyIs_eq_decide, ← decide_not]
  rw [← State.skipIf_decide, hne]; rfl

/-- Settles O30: the two skips have one condition and its negation; the frame of their update of pc gives the rest. -/
theorem keySkipsCompareTheLatchedKey : Obligations.KeySkipsCompareTheLatchedKey := by
  intro x s
  refine ⟨decodeWord_skpVx x, decodeWord_sknpVx x, ?skp, ?sknp⟩
  case skp => exact ⟨_, exec_skpVx x s, State.setPc_pc s _, OnlyChanges.setPc s _⟩
  case sknp => exact ⟨_, exec_sknpVx x s, State.setPc_pc s _, OnlyChanges.setPc s _⟩

/-! ## Family 0x8 (42_family_8_alu.md) -/

theorem exec_ldVxVy (x y : Reg) (s : State) : exec (.ldVxVy x y) s = .next (s.setReg x (s.reg y)) := rfl

theorem exec_orVxVy (x y : Reg) (s : State) : exec (.orVxVy x y) s = .next (s.setReg x (s.reg x ||| s.reg y)) := rfl

theorem exec_andVxVy (x y : Reg) (s : State) : exec (.andVxVy x y) s = .next (s.setReg x (s.reg x &&& s.reg y)) := rfl

theorem exec_xorVxVy (x y : Reg) (s : State) : exec (.xorVxVy x y) s = .next (s.setReg x (s.reg x ^^^ s.reg y)) := rfl

theorem exec_addVxVy (x y : Reg) (s : State) :
    exec (.addVxVy x y) s =
      .next (s.setRegFlag x (addBytes (s.reg x) (s.reg y)) (carryFlag (s.reg x) (s.reg y))) := rfl

theorem exec_subVxVy (x y : Reg) (s : State) :
    exec (.subVxVy x y) s =
      .next (s.setRegFlag x (subBytes (s.reg x) (s.reg y)) (greaterFlag (s.reg x) (s.reg y))) := rfl

theorem exec_subnVxVy (x y : Reg) (s : State) :
    exec (.subnVxVy x y) s =
      .next (s.setRegFlag x (subBytes (s.reg y) (s.reg x)) (greaterFlag (s.reg y) (s.reg x))) := rfl

theorem exec_shrVx (x y : Reg) (s : State) :
    exec (.shrVx x y) s = .next (s.setRegFlag x (shiftRightOne (s.reg x)) (lowBitFlag (s.reg x))) := rfl

theorem exec_shlVx (x y : Reg) (s : State) :
    exec (.shlVx x y) s = .next (s.setRegFlag x (shiftLeftOne (s.reg x)) (highBitFlag (s.reg x))) := rfl

/-- Settles O21: each form is one update of the destination, computed from the registers before it. -/
theorem logicWritesNoFlag : Obligations.LogicWritesNoFlag := by
  intro x y s
  refine ⟨?ld, ?or, ?and, ?xor, decodeWord_family8 x y 0x0#4, decodeWord_family8 x y 0x1#4, decodeWord_family8 x y 0x2#4,
    decodeWord_family8 x y 0x3#4⟩
  case ld => exact ⟨_, exec_ldVxVy x y s, State.reg_setReg_self s x _, OnlyChanges.setReg s x _⟩
  case or => exact ⟨_, exec_orVxVy x y s, State.reg_setReg_self s x _, OnlyChanges.setReg s x _⟩
  case and => exact ⟨_, exec_andVxVy x y s, State.reg_setReg_self s x _, OnlyChanges.setReg s x _⟩
  case xor => exact ⟨_, exec_xorVxVy x y s, State.reg_setReg_self s x _, OnlyChanges.setReg s x _⟩

/-- A flag-writing instruction, said once: the result in a destination that is not the flag register, the flag exactly its
condition, and no other part changed (R12, R100). -/
theorem completes_setRegFlag {i : Instr} {s : State} {x : Reg} {result : Byte} {c : Bool} {R : Byte → Prop} {P : Prop}
    (h : exec i s = .next (s.setRegFlag x result c)) (hresult : R result) (hflag : c = true ↔ P) :
    Completes (exec i s) (fun t =>
      (x ≠ VF → R (t.reg x)) ∧ FlagIs t P ∧ OnlyChanges s t (fun p => p = .reg x ∨ p = .reg VF)) := by
  refine ⟨_, h, fun hx => ?_, flagIs_setRegFlag s x result hflag, OnlyChanges.setRegFlag s x result c⟩
  rwa [result_setRegFlag s hx]

/-- Settles O22: the sum modulo 256 and the carry flag are those of the unbounded sum. -/
theorem addSetsCarry : Obligations.AddSetsCarry := fun x y s =>
  ⟨decodeWord_family8 x y 0x4#4,
    completes_setRegFlag (R := fun b => b.toNat = ((s.reg x).toNat + (s.reg y).toNat) % 256) (exec_addVxVy x y s)
      (addBytes_toNat _ _) (carryFlag_iff _ _)⟩

/-- Settles O23: SUBN is SUB with the operands exchanged; the difference is that of the integers. -/
theorem subtractsSetStrictNoBorrow : Obligations.SubtractsSetStrictNoBorrow := by
  intro x y s
  refine ⟨decodeWord_family8 x y 0x5#4, decodeWord_family8 x y 0x7#4, ?sub, ?subn⟩
  case sub =>
    exact completes_setRegFlag (R := fun b => (b.toNat : Int) = ((s.reg x).toNat - (s.reg y).toNat : Int) % 256)
      (exec_subVxVy x y s) (subBytes_toNat _ _) (greaterFlag_iff _ _)
  case subn =>
    exact completes_setRegFlag (R := fun b => (b.toNat : Int) = ((s.reg y).toNat - (s.reg x).toNat : Int) % 256)
      (exec_subnVxVy x y s) (subBytes_toNat _ _) (greaterFlag_iff _ _)

/-- Settles O24: halving and doubling modulo 256, with the bit that falls out as a condition on the number. -/
theorem shiftsMoveOnePlace : Obligations.ShiftsMoveOnePlace := by
  intro x y s
  refine ⟨decodeWord_family8 x y 0x6#4, decodeWord_family8 x y 0xE#4, ?shr, ?shl⟩
  case shr =>
    exact completes_setRegFlag (R := fun b => b.toNat = (s.reg x).toNat / 2) (exec_shrVx x y s)
      (shiftRightOne_toNat _) (lowBitFlag_iff _)
  case shl =>
    exact completes_setRegFlag (R := fun b => b.toNat = (s.reg x).toNat * 2 % 256) (exec_shlVx x y s)
      (shiftLeftOne_toNat _) (highBitFlag_iff _)

/-! ## Jump with offset (R118) and random (R119) -/

theorem exec_jpVxNnn (x : Reg) (nnn : Addr) (s : State) :
    exec (.jpVxNnn x nnn) s = .next (s.setPc (addrOperand nnn + wordOfByte (s.reg x))) := rfl

/-- Twelve bits plus eight do not reach sixteen, so the sum is not reduced (D8). -/
theorem addrOperand_add_wordOfByte_toNat (nnn : Addr) (b : Byte) :
    (addrOperand nnn + wordOfByte b).toNat = nnn.toNat + b.toNat := by
  have hn := nnn.isLt
  have hb := b.isLt
  rw [BitVec.toNat_add, addrOperand_toNat, wordOfByte_toNat, Nat.mod_eq_of_lt (by omega)]

/-- Settles O26: the jump is one update of pc, to a sum that cannot wrap. -/
theorem jpVxAddsItsRegister : Obligations.JpVxAddsItsRegister := fun nnn s =>
  ⟨decodeWord_jpVxNnn nnn, fun x =>
    ⟨_, exec_jpVxNnn x nnn s, addrOperand_add_wordOfByte_toNat nnn (s.reg x), OnlyChanges.setPc s _⟩⟩

theorem exec_rndVxKk (x : Reg) (kk : Byte) (s : State) :
    exec (.rndVxKk x kk) s = .next (s.consumeRandom.setReg x (s.randomByte &&& kk)) := rfl

theorem OnlyChanges.consumeRandom_setReg (s : State) (x : Reg) (b : Byte) :
    OnlyChanges s (s.consumeRandom.setReg x b) (fun p => p = .reg x ∨ p = .rndArg ∨ p = .draws) := by
  intro p hp
  cases p <;> simp_all [SameAt]

theorem State.consumeRandom_rndArg (s : State) : s.consumeRandom.rndArg = none := by
  obtain ⟨b, -, -, h⟩ | ⟨hnone, -, h⟩ := s.consumeRandom_cases
  · rw [h]
  · rw [h, hnone]

/-- No bit outside the mask is set. -/
theorem and_and_not_self (a kk : Byte) : a &&& kk &&& ~~~kk = 0#8 := by
  rw [BitVec.and_assoc, BitVec.and_not_self]
  exact BitVec.and_zero

/-- Settles O27: the byte is the argument or the next free draw, and which of the two is used up with it. -/
theorem rndMasksTheRandomByte : Obligations.RndMasksTheRandomByte := by
  intro x kk s
  refine ⟨decodeWord_rndVxKk x kk, _, exec_rndVxKk x kk s, fun r hr => ?argument, fun hnone => ?free,
    State.consumeRandom_rndArg s, ?mask, OnlyChanges.consumeRandom_setReg s x _⟩
  case argument =>
    obtain ⟨b, hb, hbyte, hused⟩ | ⟨hn, -, -⟩ := s.consumeRandom_cases
    · obtain rfl := Option.some.inj (hr.symm.trans hb)
      rw [State.reg_setReg_self, State.setReg_draws, hbyte, hused]
      exact ⟨rfl, rfl⟩
    · exact nomatch hr.symm.trans hn
  case free =>
    obtain ⟨b, hb, -, -⟩ | ⟨-, hbyte, hused⟩ := s.consumeRandom_cases
    · exact nomatch hnone.symm.trans hb
    · rw [State.reg_setReg_self, State.setReg_draws, hbyte, hused]
      exact ⟨rfl, rfl⟩
  case mask => rw [State.reg_setReg_self, and_and_not_self]

/-! ## Index arithmetic (R145, R146) -/

theorem exec_addIVx (x : Reg) (s : State) : exec (.addIVx x) s = .next (s.setI (s.i + wordOfByte (s.reg x))) := rfl

theorem exec_ldFVx (x : Reg) (s : State) : exec (.ldFVx x) s = .next (s.setI (glyphAddr (s.reg x))) := rfl

theorem add_wordOfByte_toNat (a : Word) (b : Byte) : (a + wordOfByte b).toNat = (a.toNat + b.toNat) % 65536 := by
  rw [BitVec.toNat_add, wordOfByte_toNat]

/-- Settles O34: either form is one update of I, with the value its operand form has as a number. -/
theorem indexArithmetic : Obligations.IndexArithmetic := by
  intro x s
  refine ⟨decodeWord_addIVx x, decodeWord_ldFVx x, ?add, ?glyph⟩
  case add => exact ⟨_, exec_addIVx x s, add_wordOfByte_toNat s.i (s.reg x), OnlyChanges.setI s _⟩
  case glyph => exact ⟨_, exec_ldFVx x s, glyphAddr_toNat (s.reg x), OnlyChanges.setI s _⟩

end Machine

end Sys2Proof
end

section
/-! SUPPORT. Proofs for DRW and for the instructions that access memory (spec 44_family_D_draw.md, 46_family_F_misc.md). -/

namespace Sys2Proof.Machine

/-! ## DRW (R126 to R128) -/

/-- A pixel beyond the last column reads as off (R16). -/
theorem State.pixel_beyond_columns (s : State) {px : Nat} (hx : Config.dispW ≤ px) (py : Nat) : s.pixel px py = false :=
  BitVec.getLsbD_of_ge _ px hx

/-- A sprite covers no pixel beyond the last row (R126). -/
theorem spriteCovers_row_lt {sprite : List Byte} {x0 y0 px py : Nat} (h : spriteCovers sprite x0 y0 px py = true) :
    py < Config.dispH := by
  simp only [spriteCovers, Bool.and_eq_true, decide_eq_true_eq] at h
  exact h.1.2.2.1

theorem flagIs_of_flagWhen {c : Prop} {s t : State} (h : FlagWhen c s t) (hs : s.reg VF = 0#8) : FlagIs t c :=
  ⟨h.hit, fun hc => (h.miss hc).trans hs⟩

theorem FlagIs.congr {t : State} {P Q : Prop} (h : FlagIs t P) (e : P ↔ Q) : FlagIs t Q := propext e ▸ h

/-- What the sprite that DRW draws covers (R126). -/
abbrev State.drwCovers (s : State) (x y : Reg) (n : Nibble) : Nat → Nat → Bool :=
  spriteCovers (s.bytesAtI n.toNat) ((s.reg x).toNat % 128) ((s.reg y).toNat % 64)

/-- The state that DRW computes: `V[0xF]` zeroed, then the sprite's rows. -/
def State.drawn (s : State) (x y : Reg) (n : Nibble) : State :=
  drawRows (anchorCol (s.reg x)) (anchorRow (s.reg y)) (s.setFlag false) 0 (s.bytesAtI n.toNat)

theorem exec_drwVxVyN {s : State} {n : Nibble} (h : s.i.toNat + n.toNat ≤ Config.memSize ∨ n.toNat = 0) (x y : Reg) :
    exec (.drwVxVyN x y n) s = .next (s.drawn x y n) :=
  State.complete_checkRange_ok h (s.drawn x y n)

section
variable (s : State) (x y : Reg) (n : Nibble)

theorem State.drawn_pixel (px py : Nat) (hx : px < 128) :
    (s.drawn x y n).pixel px py = (s.pixel px py ^^ s.drwCovers x y n px py) := by
  obtain ⟨hpix, -⟩ := drawRows_spec (anchorCol_lt (s.reg x)) (anchorRow (s.reg y)) (s.setFlag false) 0 (s.bytesAtI n.toNat)
  exact hpix px py hx

/-- Rows beyond the grid are not covered, so a bound on the row may stand beside the one on the column. -/
theorem exists_covered_iff (P : Nat → Nat → Prop) :
    (∃ px < Config.dispW, ∃ py, s.drwCovers x y n px py = true ∧ P px py) ↔
      ∃ px py, px < 128 ∧ py < 64 ∧ s.drwCovers x y n px py = true ∧ P px py :=
  ⟨fun ⟨px, hx, py, hc, hP⟩ => ⟨px, py, hx, spriteCovers_row_lt hc, hc, hP⟩,
    fun ⟨px, py, hx, _, hc, hP⟩ => ⟨px, hx, py, hc, hP⟩⟩

theorem State.drawn_flag :
    FlagIs (s.drawn x y n) (∃ px py, px < 128 ∧ py < 64 ∧ s.drwCovers x y n px py = true ∧ s.pixel px py = true) := by
  obtain ⟨-, hflag, -⟩ := drawRows_spec (anchorCol_lt (s.reg x)) (anchorRow (s.reg y)) (s.setFlag false) 0 (s.bytesAtI n.toNat)
  exact (flagIs_of_flagWhen hflag (State.reg_setReg_self s VF _)).congr
    (exists_covered_iff s x y n fun px py => s.pixel px py = true)

theorem State.drawn_dirty :
    (s.drawn x y n).needsRedraw = true ↔
      s.needsRedraw = true ∨ ∃ px py, px < 128 ∧ py < 64 ∧ s.drwCovers x y n px py = true := by
  obtain ⟨-, -, hdirty, -⟩ := drawRows_spec (anchorCol_lt (s.reg x)) (anchorRow (s.reg y)) (s.setFlag false) 0 (s.bytesAtI n.toNat)
  have hcovered : (∃ px < Config.dispW, ∃ py, s.drwCovers x y n px py = true) ↔
      ∃ px py, px < 128 ∧ py < 64 ∧ s.drwCovers x y n px py = true := by
    simpa only [and_true] using exists_covered_iff s x y n fun _ _ => True
  exact hdirty.trans (or_congr_right hcovered)

/-- A pixel that DRW changes lies on the grid. -/
theorem State.drawn_pixel_outside {px py : Nat} (h : ¬ (px < 128 ∧ py < 64)) :
    (s.drawn x y n).pixel px py = s.pixel px py := by
  by_cases hx : px < 128
  · have hout : s.drwCovers x y n px py = false := Bool.eq_false_iff.2 fun hc => h ⟨hx, spriteCovers_row_lt hc⟩
    rw [State.drawn_pixel s x y n px py hx, hout, Bool.xor_false]
  · have hpx : Config.dispW ≤ px := Nat.le_of_not_lt hx
    rw [State.pixel_beyond_columns _ hpx, State.pixel_beyond_columns _ hpx]

/-- DRW keeps everything but `V[0xF]`, the grid and the dirty flag. -/
theorem State.drawn_keeps : Keeps (fun F => F = .reg VF ∨ F = .disp ∨ F = .dirty) s (s.drawn x y n) :=
  (Keeps.setReg (.inl rfl)).trans
    (Keeps.of_drawRows (anchorCol_lt _) (.inl rfl) (.inr (.inl rfl)) (.inr (.inr rfl)))

theorem OnlyChanges.drawn :
    OnlyChanges s (s.drawn x y n) (fun p => p = .reg VF ∨ p = .dirty ∨ ∃ px py, px < 128 ∧ py < 64 ∧ p = .pixel px py) := by
  intro p hp
  cases p
  case pixel px py => exact s.drawn_pixel_outside x y n fun h => hp (.inr (.inr ⟨px, py, h.1, h.2, rfl⟩))
  case reg q => exact (s.drawn_keeps x y n).sameAt (by simpa [Part.field] using hp)
  case dirty => exact absurd (.inr (.inl rfl)) hp
  all_goals exact (s.drawn_keeps x y n).sameAt (by simp [Part.field])

end

/-- Settles O28: what drawing the sprite's rows does, from the state whose `V[0xF]` is zeroed. -/
theorem drwXorsItsSprite : Obligations.DrwXorsItsSprite := by
  intro x y n s hrange
  have hin : s.i.toNat + n.toNat ≤ Config.memSize ∨ n.toNat = 0 := hrange.symm.imp_right fun h => congrArg BitVec.toNat h
  exact ⟨decodeWord_drwVxVyN x y n, _, exec_drwVxVyN hin x y, fun px py hx _ => s.drawn_pixel x y n px py hx,
    s.drawn_flag x y n, s.drawn_dirty x y n, OnlyChanges.drawn s x y n⟩

/-- A second draw at the same place covers what the first covered: DRW leaves I, memory and its two anchors. -/
theorem State.drawn_drwCovers (s : State) {x y : Reg} (hx : x ≠ VF) (hy : y ≠ VF) (n : Nibble) :
    (s.drawn x y n).drwCovers x y n = s.drwCovers x y n := by
  have keeps := s.drawn_keeps x y n
  have hbytes : (s.drawn x y n).bytesAtI n.toNat = s.bytesAtI n.toNat := by
    have hmem : (s.drawn x y n).mem = s.mem := keeps .mem (by simp)
    have hi : (s.drawn x y n).i = s.i := keeps .index (by simp)
    simp only [State.bytesAtI, State.readByte, State.effAddr, hmem, hi]
  have hvx : (s.drawn x y n).reg x = s.reg x := keeps (.reg x) (by simp [hx])
  have hvy : (s.drawn x y n).reg y = s.reg y := keeps (.reg y) (by simp [hy])
  rw [State.drwCovers, hbytes, hvx, hvy]

/-- Settles O29: on a clear display the first draw leaves exactly the covered pixels on, so the second collides and flips
them back. -/
theorem drwTwiceRestoresTheDisplay : Obligations.DrwTwiceRestoresTheDisplay := by
  intro x y n s hx hy hin hclear ⟨px, py, hpx, hcovered⟩
  change s.drwCovers x y n px py = true at hcovered
  have hpy : py < 64 := spriteCovers_row_lt hcovered
  have hcovers := s.drawn_drwCovers hx hy n
  have hi : (s.drawn x y n).i = s.i := s.drawn_keeps x y n .index (by simp)
  refine ⟨_, exec_drwVxVyN (.inl hin) x y, (s.drawn_flag x y n).2 ?first, _, exec_drwVxVyN (.inl (hi ▸ hin)) x y,
    ((s.drawn x y n).drawn_flag x y n).1 ?second, fun qx qy hqx _ => ?restored⟩
  case first =>
    rintro ⟨qx, qy, -, -, -, hon⟩
    exact nomatch (hclear qx qy).symm.trans hon
  case second =>
    refine ⟨px, py, hpx, hpy, by rwa [hcovers], ?_⟩
    rw [s.drawn_pixel x y n px py hpx, hclear, hcovered]
    rfl
  case restored =>
    rw [State.drawn_pixel _ x y n qx qy hqx, hcovers, s.drawn_pixel x y n qx qy hqx, Bool.xor_assoc, Bool.xor_self,
      Bool.xor_false]

/-! ## LD B, LD [I] and LD Vx,[I] (R147 to R149) -/

theorem exec_ldBVx {s : State} (h : s.i.toNat + 2 ≤ 4095) (x : Reg) :
    exec (.ldBVx x) s = .next (s.writeBytes (s.effAddr 0) (decimalDigits (s.reg x))) :=
  State.complete_checkRange_ok (.inl (Nat.succ_le_succ h)) _

theorem exec_ldMemVx {s : State} {x : Reg} (h : s.i.toNat + x.toNat ≤ 4095) :
    exec (.ldMemVx x) s = .next (s.writeBytes (s.effAddr 0) (s.regsUpTo x)) :=
  State.complete_checkRange_ok (.inl (Nat.succ_le_succ h)) _

theorem exec_ldVxMem {s : State} {x : Reg} (h : s.i.toNat + x.toNat ≤ 4095) :
    exec (.ldVxMem x) s = .next (s.setRegsFrom 0 (s.bytesAtI (x.toNat + 1))) :=
  State.complete_checkRange_ok (.inl (Nat.succ_le_succ h)) _

/-- The `j`-th byte of a block stored at `I`. -/
theorem State.readByte_writeBytes_effAddr (s : State) (bs : List Byte) (j : Nat) :
    (s.writeBytes (s.effAddr 0) bs).readByte (s.effAddr j) = bs.getD j (s.readByte (s.effAddr j)) := by
  simp [State.readByte_writeBytes, State.effAddr]

/-- Each decimal digit of a byte fits a byte (R147). -/
theorem digit_toNat {d : Nat} (h : d < 256) : (BitVec.ofNat 8 d).toNat = d := Nat.mod_eq_of_lt h

/-- Settles O35: the three digits are the block that LD B stores at I. -/
theorem ldBStoresDecimalDigits : Obligations.LdBStoresDecimalDigits := by
  intro x s hin
  have hv := (s.reg x).isLt
  refine ⟨decodeWord_ldBVx x, _, exec_ldBVx hin x, ?hundreds, ?tens, ?ones, ?frame⟩
  case hundreds => rw [State.readByte_writeBytes_effAddr]; exact digit_toNat (by omega)
  case tens => rw [State.readByte_writeBytes_effAddr]; exact digit_toNat (by omega)
  case ones => rw [State.readByte_writeBytes_effAddr]; exact digit_toNat (by omega)
  case frame =>
    refine (OnlyChanges.writeBytes s (s.effAddr 0) (decimalDigits (s.reg x))).mono ?_
    rintro p ⟨j, hj, rfl⟩
    rw [decimalDigits_length] at hj
    interval_cases j
    · exact .inl rfl
    · exact .inr (.inl rfl)
    · exact .inr (.inr rfl)

/-- The bytes that LD [I],Vx leaves at `I` upward. -/
theorem State.readByte_blockStore (s : State) {x r : Reg} (hr : r.toNat ≤ x.toNat) :
    (s.writeBytes (s.effAddr 0) (s.regsUpTo x)).readByte (s.effAddr r.toNat) = s.reg r := by
  rw [State.readByte_writeBytes_effAddr, State.regsUpTo_getD s x hr, BitVec.ofNat_toNat, BitVec.setWidth_eq]

/-- The registers that LD Vx,[I] leaves. -/
theorem State.reg_blockLoad (s : State) {x r : Reg} (hr : r.toNat ≤ x.toNat) :
    (s.setRegsFrom 0 (s.bytesAtI (x.toNat + 1))).reg r = s.readByte (s.effAddr r.toNat) := by
  have hx := x.isLt
  have hlen : (s.bytesAtI (x.toNat + 1)).length = x.toNat + 1 := State.bytesAtI_length s _
  rw [State.reg_setRegsFrom s 0 _ (by omega), if_pos (Nat.zero_le _), Nat.sub_zero,
    State.bytesAtI_getD s (Nat.lt_succ_of_le hr)]
  rfl

/-- Settles O36: LD [I],Vx is one block of bytes from I on. -/
theorem blockStoreCopiesRegisters : Obligations.BlockStoreCopiesRegisters := by
  intro x s hin
  refine ⟨decodeWord_ldMemVx x, _, exec_ldMemVx hin, fun r hr => s.readByte_blockStore hr, ?frame⟩
  case frame =>
    refine (OnlyChanges.writeBytes s (s.effAddr 0) (s.regsUpTo x)).mono ?_
    rintro p ⟨j, hj, rfl⟩
    rw [State.regsUpTo_length] at hj
    have hx := x.isLt
    have hnum : (BitVec.ofNat 4 j).toNat = j := Nat.mod_eq_of_lt (by omega)
    exact ⟨BitVec.ofNat 4 j, by omega, by rw [hnum]; rfl⟩

/-- Settles O37: LD Vx,[I] is one block of registers from V0 on. -/
theorem blockLoadCopiesMemory : Obligations.BlockLoadCopiesMemory := by
  intro x s hin
  have hx := x.isLt
  have hlen : (s.bytesAtI (x.toNat + 1)).length = x.toNat + 1 := State.bytesAtI_length s _
  refine ⟨decodeWord_ldVxMem x, _, exec_ldVxMem hin, fun r hr => s.reg_blockLoad hr, ?frame⟩
  case frame =>
    refine (OnlyChanges.setRegsFrom s 0 (s.bytesAtI (x.toNat + 1)) (by omega)).mono ?_
    rintro p ⟨q, -, hq, rfl⟩
    exact ⟨q, by omega, rfl⟩

/-- Settles O38: the load reads, from the same I, the bytes the store left there. -/
theorem storeThenLoadRestoresRegisters : Obligations.StoreThenLoadRestoresRegisters := by
  intro x s t u hin hstore hi hmem
  obtain rfl := Host.Outcome.next.inj ((exec_ldMemVx hin).symm.trans hstore)
  have hui : u.i = s.i := hi.trans (State.writeBytes_i s _ _)
  refine ⟨_, exec_ldVxMem (by rwa [hui]), ?index, fun r hr => ?register⟩
  case index => rw [State.setRegsFrom_i, hui]
  case register =>
    have heff : u.effAddr r.toNat = s.effAddr r.toNat := congrArg (fun i : Word => i.toNat + r.toNat) hui
    calc (u.setRegsFrom 0 (u.bytesAtI (x.toNat + 1))).reg r
        = u.readByte (u.effAddr r.toNat) := u.reg_blockLoad hr
      _ = (s.writeBytes (s.effAddr 0) (s.regsUpTo x)).readByte (s.effAddr r.toNat) := by
          rw [heff]; exact congrArg (Memory.read · _) hmem
      _ = s.reg r := s.readByte_blockStore hr

end Sys2Proof.Machine
end

section
/-! SUPPORT. Proofs for runs that stand still or change their own program: the key wait, the planted instruction, the end loop
(spec 46_family_F_misc.md R142, 20_memory.md, 70_reset_and_hazards.md section 5). -/

namespace Sys2Proof.Machine

/-- Going back to where a fetch began undoes the fetch. -/
theorem State.setPc_setPc_pc (s : State) (a : Word) : (s.setPc a).setPc s.pc = s := rfl

theorem OnlyChanges.trans {s t u : State} {A : Part → Prop} (h : OnlyChanges s t A) (k : OnlyChanges t u A) :
    OnlyChanges s u A := fun p hp => by
  have hst := h p hp
  have htu := k p hp
  cases p <;> exact htu.trans hst

/-! ## The key wait (R142) -/

theorem step_keyWait_waiting {s : State} {x : Reg} (h : s.Fetches (.instr (.ldVxK x) [])) (hk : s.keyTransition = false) :
    step s = .next s := by
  have hwait : (s.setPc (s.pc + 2#16)).keyTransition = false := hk
  rw [step_of_fetches_instr h, exec_ldVxK_waiting hwait, State.setPc_pc, BitVec.add_sub_cancel, State.setPc_setPc_pc]

theorem step_keyWait_latched {s : State} {x : Reg} (h : s.Fetches (.instr (.ldVxK x) [])) (hk : s.keyTransition = true) :
    step s = .next ((s.setPc (s.pc + 2#16)).setReg x (byteOfKey s.keyCur)) := by
  have hlatched : (s.setPc (s.pc + 2#16)).keyTransition = true := hk
  rw [step_of_fetches_instr h, exec_ldVxK_latched hlatched, State.setPc_keyCur]

/-- Settles O33: without a transition the STEP leads back to the state itself, so any number of them does; the press of
another key raises the flag and leaves what is fetched. -/
theorem keyWaitHoldsUntilANewKey : Obligations.KeyWaitHoldsUntilANewKey := by
  intro x s h hk
  refine ⟨core_run_fixed (step_keyWait_waiting h hk), fun key hkey => ?release⟩
  case release =>
    have hfetch : (s.keyPress key).Fetches (.instr (.ldVxK x) []) := h
    have hflag : (s.keyPress key).keyTransition = true := (s.keyPress_keyTransition_iff key).2 (.inr hkey)
    refine ⟨_, step_keyWait_latched hfetch hflag, ?key, rfl, ?frame⟩
    case key => rw [State.reg_setReg_self, byteOfKey_toNat, State.keyPress_keyCur]
    case frame =>
      exact ((OnlyChanges.setPc _ _).mono fun _ => .inr).trans ((OnlyChanges.setReg _ x _).mono fun _ => .inl)

/-! ## The planted instruction (20_memory.md: fetch coherence) -/

/-- A block stored at pc puts its first two registers where the next fetch reads. -/
theorem State.wordAtPc_blockStore {s : State} {x : Reg} (hi : s.i = s.pc) (hx : 1 ≤ x.toNat) :
    (s.writeBytes (s.effAddr 0) (s.regsUpTo x)).wordAtPc = s.reg 0x0#4 ++ s.reg 0x1#4 := by
  have h0 := s.readByte_blockStore (x := x) (r := 0x0#4) (Nat.zero_le _)
  have h1 := s.readByte_blockStore (x := x) (r := 0x1#4) hx
  rw [State.wordAtPc, State.writeBytes_pc, ← hi]
  exact congrArg₂ wordOfBytes h0 h1

/-- Settles O44: LD [I],Vx begins with pc on the address it stores at, so the next fetch reads the first two bytes stored. -/
theorem storedInstructionIsFetchedNext : Obligations.StoredInstructionIsFetchedNext := by
  intro x s hfetch hx hi hin
  have hstore : step s = .next _ := (step_of_fetches_instr hfetch).trans (exec_ldMemVx (s := s.setPc (s.pc + 2#16)) hin)
  refine ⟨_, hstore, State.writeBytes_pc _ _ _, fun i hdec => (State.fetches_instr_iff _ i).2 ⟨?running, ?pc, ?word⟩⟩
  case running => exact (State.writeBytes_fault _ _ _).trans hfetch.1
  case pc =>
    rw [State.writeBytes_pc, State.setPc_pc, ← hi]
    exact Nat.le_of_lt_succ (by omega : s.i.toNat < 4095)
  case word =>
    have hword := State.wordAtPc_blockStore (s := s.setPc (s.pc + 2#16)) hi hx
    rw [hword]
    exact hdec

/-! ## The end loop (R210) -/

/-- An address of memory is the operand its low twelve bits are (R63). -/
theorem addrOperand_setWidth {a : Word} (h : a.toNat ≤ Config.lastFetch) : addrOperand (a.setWidth 12) = a := by
  refine BitVec.eq_of_toNat_eq ?_
  rw [addrOperand_toNat, BitVec.toNat_setWidth]
  exact Nat.mod_eq_of_lt (Nat.lt_of_le_of_lt h (by decide))

theorem step_endLoop {s : State} (h : s.AtEndLoop) : step s = .next s := by
  obtain ⟨hrun, hpc, hword⟩ := h
  have hself : addrOperand (s.pc.setWidth 12) = s.pc := addrOperand_setWidth hpc
  have hdec : decodeWord s.wordAtPc = some (.jpNnn (s.pc.setWidth 12)) :=
    calc decodeWord s.wordAtPc
        = decodeWord (0x1000#16 + addrOperand (s.pc.setWidth 12)) := by rw [hword, hself]
      _ = some (.jpNnn (s.pc.setWidth 12)) := decodeWord_jpNnn _
  rw [step_of_fetches_instr ((s.fetches_instr_iff _).2 ⟨hrun, hpc, hdec⟩), exec_jpNnn, hself, State.setPc_setPc_pc]

/-- Settles O45: the jump to itself leads back to the state it started from. -/
theorem endLoopLeavesAllState : Obligations.EndLoopLeavesAllState := fun _ h => core_run_fixed (step_endLoop h)

end Sys2Proof.Machine
end

section
/-! SUPPORT. Proofs for non-interference: two states that agree but for fields an instruction does not read stay so (spec
10_state.md: dirty flag, timers, input latch; 43_family_9_to_C.md: random byte). `Keeps D s t` says that two states agree but
for the fields of `D`. -/

namespace Sys2Proof.Machine

/-! ## Updates of two states that agree -/

section
variable {D : StateField → Prop} {s s' t t' u u' : State} (h : Keeps D s s')
include h

theorem Keeps.setReg_congr (x : Reg) {b b' : Byte} (hb : b' = b) : Keeps D (s.setReg x b) (s'.setReg x b') := by
  intro F hF
  have hs := h F hF
  cases F
  case reg q => rw [SameField, State.reg_setReg, State.reg_setReg, hb, show s'.reg q = s.reg q from hs]
  all_goals exact hs

theorem Keeps.setRegFlag_congr (x : Reg) {b b' : Byte} {c c' : Bool} (hb : b' = b) (hc : c' = c) :
    Keeps D (s.setRegFlag x b c) (s'.setRegFlag x b' c') :=
  (h.setReg_congr x hb).setReg_congr VF (congrArg flagByte hc)

theorem Keeps.setPc_congr {a a' : Word} (ha : a' = a) : Keeps D (s.setPc a) (s'.setPc a') := by
  intro F hF
  have hs := h F hF
  cases F
  case pc => exact ha
  all_goals exact hs

theorem Keeps.skipIf_congr (hpc : s'.pc = s.pc) {c c' : Bool} (hc : c' = c) : Keeps D (s.skipIf c) (s'.skipIf c') := by
  rw [State.skipIf_eq, State.skipIf_eq]
  exact h.setPc_congr (by rw [hc, hpc])

theorem Keeps.setI_congr {a a' : Word} (ha : a' = a) : Keeps D (s.setI a) (s'.setI a') := by
  intro F hF
  have hs := h F hF
  cases F
  case index => exact ha
  all_goals exact hs

theorem Keeps.setDt_congr {b b' : Byte} (hb : b' = b) : Keeps D (s.setDt b) (s'.setDt b') := by
  intro F hF
  have hs := h F hF
  cases F
  case delay => exact hb
  all_goals exact hs

theorem Keeps.setSt_congr {b b' : Byte} (hb : b' = b) : Keeps D (s.setSt b) (s'.setSt b') := by
  intro F hF
  have hs := h F hF
  cases F
  case sound => exact hb
  all_goals exact hs

theorem Keeps.raise_congr {f f' : Fault} (hf : f' = f) : Keeps D (s.raise f) (s'.raise f') := by
  intro F hF
  have hs := h F hF
  cases F
  case fault => exact congrArg some hf
  all_goals exact hs

theorem Keeps.clearDisplay_congr : Keeps D s.clearDisplay s'.clearDisplay := by
  intro F hF
  have hs := h F hF
  cases F
  case disp | dirty => rfl
  all_goals exact hs

theorem Keeps.jumpOnStack_congr {a a' : Word} {l l' : List Word} (ha : a' = a) (hl : l' = l) :
    Keeps D { s with stack := l, pc := a } { s' with stack := l', pc := a' } := by
  intro F hF
  have hs := h F hF
  cases F
  case pc => exact ha
  case stack => exact hl
  all_goals exact hs

theorem Keeps.consumeRandom_congr (ha : s'.rndArg = s.rndArg) (hd : s'.draws = s.draws) :
    Keeps D s.consumeRandom s'.consumeRandom := by
  intro F hF
  have hs := h F hF
  cases F
  case rndArg => rw [SameField, State.consumeRandom_rndArg, State.consumeRandom_rndArg]
  case draws =>
    cases harg : s.rndArg with
    | none => simp only [SameField, State.consumeRandom, ha.trans harg, harg, hd]
    | some b => simp only [SameField, State.consumeRandom, ha.trans harg, harg, hd]
  all_goals simpa [SameField] using hs

theorem Keeps.writeByte_congr (a : Nat) (b : Byte) : Keeps D (s.writeByte a b) (s'.writeByte a b) := by
  intro F hF
  have hs := h F hF
  cases F
  case mem => exact congrArg (Memory.write · a b) hs
  all_goals exact hs

theorem Keeps.blitPixel_congr (hdisp : s'.disp = s.disp) (px py : Nat) :
    Keeps D (s.blitPixel px py).2 (s'.blitPixel px py).2 := by
  intro F hF
  have hs := h F hF
  cases F
  case disp => exact congrArg (Display.flip · px py) hdisp
  case dirty => rfl
  all_goals exact hs

/-- A checked access agrees when its index register and what it computes do. -/
theorem Keeps.complete_checkRange_congr {count : Nat} (hi : s'.i = s.i) (ht : Keeps D t t')
    (hu : s.complete (s.checkRange count t) = .next u) (hu' : s'.complete (s'.checkRange count t') = .next u') :
    Keeps D u u' := by
  have hnat : s'.i.toNat = s.i.toNat := congrArg BitVec.toNat hi
  have hfirst : s'.firstOutOfRange = s.firstOutOfRange := by rw [State.firstOutOfRange, hi, State.firstOutOfRange]
  rcases State.complete_checkRange_cases hu with ⟨hin, rfl⟩ | ⟨hout, hpos, rfl⟩ <;>
    rcases State.complete_checkRange_cases hu' with ⟨hin', rfl⟩ | ⟨hout', hpos', rfl⟩
  · exact ht
  · omega
  · omega
  · exact h.raise_congr (congrArg Fault.memoryOutOfRange hfirst)

end

section
variable {D : StateField → Prop}

theorem Keeps.writeBytes_congr {s s' : State} (h : Keeps D s s') (a : Nat) (bs : List Byte) :
    Keeps D (s.writeBytes a bs) (s'.writeBytes a bs) := by
  induction bs generalizing s s' a with
  | nil => exact h
  | cons b bs ih => exact ih (h.writeByte_congr a b) (a + 1)

theorem Keeps.setRegsFrom_congr {s s' : State} (h : Keeps D s s') (i : Nat) (bs : List Byte) :
    Keeps D (s.setRegsFrom i bs) (s'.setRegsFrom i bs) := by
  induction bs generalizing s s' i with
  | nil => exact h
  | cons b bs ih => exact ih (h.setReg_congr _ rfl) (i + 1)

/-! ## Drawing on two states that agree, the grid among what they agree on (R126, R127) -/

/-- A 0 bit of the sprite does nothing (R126). -/
theorem drawColumn_of_bit_off {b : Byte} {c : Nat} (hb : spriteBit b c = false) (x0 py : Nat) (s : State) :
    drawColumn b x0 py s c = s :=
  if_neg (Bool.eq_false_iff.1 hb)

/-- A 1 bit of the sprite flips its pixel, and sets the flag if that was on (R127). -/
theorem drawColumn_of_bit_on {b : Byte} {c : Nat} (hb : spriteBit b c = true) (x0 py : Nat) (s : State) :
    drawColumn b x0 py s c =
      if s.pixel ((x0 + c) % Config.dispW) py then (s.blitPixel ((x0 + c) % Config.dispW) py).2.setFlag true
      else (s.blitPixel ((x0 + c) % Config.dispW) py).2 :=
  if_pos hb

theorem Keeps.drawColumn_congr {s s' : State} (h : Keeps D s s') (hD : ¬ D .disp) (b : Byte) (x0 py c : Nat) :
    Keeps D (drawColumn b x0 py s c) (drawColumn b x0 py s' c) := by
  have hdisp : s'.disp = s.disp := h .disp hD
  have hblit := h.blitPixel_congr hdisp ((x0 + c) % Config.dispW) py
  cases hb : spriteBit b c with
  | false => rwa [drawColumn_of_bit_off hb, drawColumn_of_bit_off hb]
  | true =>
    have hhit : s'.pixel ((x0 + c) % Config.dispW) py = s.pixel ((x0 + c) % Config.dispW) py :=
      congrArg (Display.get · _ _) hdisp
    rw [drawColumn_of_bit_on hb, drawColumn_of_bit_on hb, hhit]
    split
    · exact hblit.setReg_congr VF rfl
    · exact hblit

theorem Keeps.drawRow_congr {s s' : State} (h : Keeps D s s') (hD : ¬ D .disp) (b : Byte) (x0 py : Nat) :
    Keeps D (drawRow b x0 py s) (drawRow b x0 py s') := by
  unfold drawRow
  induction List.range 8 generalizing s s' with
  | nil => exact h
  | cons c cs ih => exact ih (h.drawColumn_congr hD b x0 py c)

theorem Keeps.drawRows_congr {s s' : State} (h : Keeps D s s') (hD : ¬ D .disp) (x0 y0 r : Nat) (bs : List Byte) :
    Keeps D (drawRows x0 y0 s r bs) (drawRows x0 y0 s' r bs) := by
  induction bs generalizing s s' r with
  | nil => exact h
  | cons b bs ih =>
    simp only [drawRows]
    split
    · exact ih h (r + 1)
    · exact ih (h.drawRow_congr hD b x0 (y0 + r)) (r + 1)

end

/-! ## Instructions on two states that agree -/

/-- `D` holds none of the fields that a fetch or a meaning reads, LD Vx,DT and RND apart. -/
structure Unread (D : StateField → Prop) : Prop where
  reg : ∀ q, ¬ D (.reg q)
  index : ¬ D .index
  pc : ¬ D .pc
  stack : ¬ D .stack
  mem : ¬ D .mem
  disp : ¬ D .disp
  keyCur : ¬ D .keyCur
  keyTransition : ¬ D .keyTransition
  fault : ¬ D .fault
  stackDepth : ¬ D .stackDepth

section
variable {D : StateField → Prop} {s s' t t' : State}

theorem execRet_agrees (hD : Unread D) (h : Keeps D s s') {b : Nibble} (ht : execRet b s = .next t)
    (ht' : execRet b s' = .next t') : Keeps D t t' := by
  have hstack' : s'.stack = s.stack := h .stack hD.stack
  cases hstack : s.stack with
  | nil =>
    rw [execRet_underflows hstack] at ht
    rw [execRet_underflows (hstack'.trans hstack)] at ht'
    cases ht
    cases ht'
    exact h.raise_congr rfl
  | cons a rest =>
    rw [execRet_pops hstack] at ht
    rw [execRet_pops (hstack'.trans hstack)] at ht'
    cases ht
    cases ht'
    exact h.jumpOnStack_congr rfl rfl

theorem execCallNnn_agrees (hD : Unread D) (h : Keeps D s s') {nnn : Addr} (ht : execCallNnn nnn s = .next t)
    (ht' : execCallNnn nnn s' = .next t') : Keeps D t t' := by
  have hpc : s'.pc = s.pc := h .pc hD.pc
  have hstack : s'.stack = s.stack := h .stack hD.stack
  have hdepth : s'.stackDepth = s.stackDepth := h .stackDepth hD.stackDepth
  have hfull' : s'.StackFull ↔ s.StackFull := by rw [State.stackFull_iff, hdepth, hstack]
  by_cases hfull : s.StackFull
  · rw [execCallNnn_overflows hfull] at ht
    rw [execCallNnn_overflows (hfull'.2 hfull)] at ht'
    cases ht
    cases ht'
    exact h.raise_congr rfl
  · rw [execCallNnn_pushes hfull] at ht
    rw [execCallNnn_pushes (mt hfull'.1 hfull)] at ht'
    cases ht
    cases ht'
    exact h.jumpOnStack_congr rfl (by rw [hpc, hstack])

theorem Keeps.bytesAtI_eq (hD : Unread D) (h : Keeps D s s') (count : Nat) : s'.bytesAtI count = s.bytesAtI count := by
  have hi : s'.i = s.i := h .index hD.index
  have hmem : s'.mem = s.mem := h .mem hD.mem
  simp only [State.bytesAtI, State.readByte, State.effAddr, hi, hmem]

/-- An instruction leads from states that agree to states that agree, if it reads none of the fields they differ in. -/
theorem exec_agrees (hD : Unread D) {i : Instr} (hdt : ∀ x, i = .ldVxDt x → ¬ D .delay)
    (hrnd : ∀ x kk, i = .rndVxKk x kk → ¬ D .rndArg ∧ ¬ D .draws) (h : Keeps D s s') (ht : exec i s = .next t)
    (ht' : exec i s' = .next t') : Keeps D t t' := by
  have hreg : ∀ q, s'.reg q = s.reg q := fun q => h (.reg q) (hD.reg q)
  have hi : s'.i = s.i := h .index hD.index
  have hpc : s'.pc = s.pc := h .pc hD.pc
  have hkey : s'.keyCur = s.keyCur := h .keyCur hD.keyCur
  have hlatch : s'.keyTransition = s.keyTransition := h .keyTransition hD.keyTransition
  cases i
  case cls => cases ht; cases ht'; exact h.clearDisplay_congr
  case ret b => exact execRet_agrees (b := b) hD h ht ht'
  case callNnn nnn => exact execCallNnn_agrees (nnn := nnn) hD h ht ht'
  case jpNnn => cases ht; cases ht'; exact h.setPc_congr rfl
  case jpVxNnn => cases ht; cases ht'; exact h.setPc_congr (by rw [hreg])
  case seVxKk | sneVxKk => cases ht; cases ht'; exact h.skipIf_congr hpc (by rw [hreg])
  case seVxVy | sneVxVy => cases ht; cases ht'; exact h.skipIf_congr hpc (by rw [hreg, hreg])
  case skpVx | sknpVx => cases ht; cases ht'; exact h.skipIf_congr hpc (by rw [State.keyIs, hreg, hkey, State.keyIs])
  case ldINnn => cases ht; cases ht'; exact h.setI_congr rfl
  case addIVx => cases ht; cases ht'; exact h.setI_congr (by rw [hi, hreg])
  case ldFVx => cases ht; cases ht'; exact h.setI_congr (by rw [hreg])
  case ldDtVx => cases ht; cases ht'; exact h.setDt_congr (hreg _)
  case ldStVx => cases ht; cases ht'; exact h.setSt_congr (hreg _)
  case ldVxKk => cases ht; cases ht'; exact h.setReg_congr _ rfl
  case ldVxVy => cases ht; cases ht'; exact h.setReg_congr _ (hreg _)
  case addVxKk => cases ht; cases ht'; exact h.setReg_congr _ (by rw [hreg])
  case orVxVy | andVxVy | xorVxVy => cases ht; cases ht'; exact h.setReg_congr _ (by rw [hreg, hreg])
  case addVxVy | subVxVy | subnVxVy =>
    cases ht
    cases ht'
    exact h.setRegFlag_congr _ (by rw [hreg, hreg]) (by rw [hreg, hreg])
  case shrVx | shlVx => cases ht; cases ht'; exact h.setRegFlag_congr _ (by rw [hreg]) (by rw [hreg])
  case ldVxDt x =>
    have hdelay : s'.dt = s.dt := h .delay (hdt x rfl)
    cases ht
    cases ht'
    exact h.setReg_congr _ hdelay
  case rndVxKk x kk =>
    obtain ⟨harg, hdraws⟩ := hrnd x kk rfl
    have harg' : s'.rndArg = s.rndArg := h .rndArg harg
    have hdraws' : s'.draws = s.draws := h .draws hdraws
    cases ht
    cases ht'
    refine (h.consumeRandom_congr harg' hdraws').setReg_congr x ?_
    rw [State.randomByte, State.randomByte, harg', hdraws']
  case ldVxK x =>
    cases ht
    cases ht'
    rw [hlatch]
    split
    · exact h.setReg_congr x (by rw [hkey])
    · exact h.setPc_congr (by rw [hpc])
  case drwVxVyN x y n =>
    refine h.complete_checkRange_congr hi ?_ ht ht'
    rw [hreg, hreg, h.bytesAtI_eq hD]
    exact (h.setReg_congr VF rfl).drawRows_congr hD.disp _ _ _ _
  case ldBVx x =>
    refine h.complete_checkRange_congr hi ?_ ht ht'
    simp only [State.effAddr, hreg, hi]
    exact h.writeBytes_congr _ _
  case ldMemVx x =>
    refine h.complete_checkRange_congr hi ?_ ht ht'
    simp only [State.effAddr, State.regsUpTo, hreg, hi]
    exact h.writeBytes_congr _ _
  case ldVxMem x =>
    refine h.complete_checkRange_congr hi ?_ ht ht'
    rw [h.bytesAtI_eq hD]
    exact h.setRegsFrom_congr _ _

/-- Two states that agree fetch the same. -/
theorem Keeps.fetches_iff (hD : Unread D) (h : Keeps D s s') (d : Decoded) : s'.Fetches d ↔ s.Fetches d := by
  have hpc : s'.pc = s.pc := h .pc hD.pc
  have hmem : s'.mem = s.mem := h .mem hD.mem
  have hfault : s'.fault = s.fault := h .fault hD.fault
  simp only [State.Fetches, State.Running, State.readByte, hpc, hmem, hfault]

/-- A STEP leads from states that agree to states that agree, if what it executes reads none of the fields they differ in. -/
theorem step_agrees (hD : Unread D) (hdt : ∀ x, s.Fetches (.instr (.ldVxDt x) []) → ¬ D .delay)
    (hrnd : ∀ x kk, s.Fetches (.instr (.rndVxKk x kk) []) → ¬ D .rndArg ∧ ¬ D .draws) (h : Keeps D s s')
    (ht : step s = .next t) : ∃ t', step s' = .next t' ∧ Keeps D t t' := by
  have hrun : s.Running := (step_cases ht).1
  have hrun' : s'.Running := Eq.trans (h .fault hD.fault) hrun
  have hpc : s'.pc = s.pc := h .pc hD.pc
  have hpast : Keeps D (s.setPc (s.pc + 2#16)) (s'.setPc (s'.pc + 2#16)) := h.setPc_congr (by rw [hpc])
  rcases s.fetches_cases hrun with hout | hres | ⟨i, hi⟩
  · obtain rfl := Host.Outcome.next.inj ((step_of_pc_out_of_range hrun hout).symm.trans ht)
    exact ⟨_, step_of_pc_out_of_range hrun' (by rwa [hpc]), h.raise_congr (by rw [hpc])⟩
  · obtain rfl := Host.Outcome.next.inj ((step_of_fetches_reserved hres).symm.trans ht)
    exact ⟨_, step_of_fetches_reserved ((h.fetches_iff hD _).2 hres), hpast⟩
  · obtain ⟨t', ht'⟩ := exec_next i (s'.setPc (s'.pc + 2#16))
    rw [step_of_fetches_instr hi] at ht
    refine ⟨t', (step_of_fetches_instr ((h.fetches_iff hD _).2 hi)).trans ht', ?_⟩
    exact exec_agrees hD (fun x hx => hdt x (hx ▸ hi)) (fun x kk hx => hrnd x kk (hx ▸ hi)) hpast ht ht'

end

/-- What a STEP keeps: a field that what it executes does not write, pc and the fault status apart. -/
theorem step_keeps {s t : State} (h : step s = .next t) {F : StateField} (hpc : F ≠ .pc) (hfault : F ≠ .fault)
    (hF : ∀ i, s.Fetches (.instr i []) → ¬ i.writes F) : SameField s t F := by
  obtain ⟨hrun, ⟨-, rfl⟩ | ⟨-, -, rfl⟩ | ⟨hle, i, hdec, hexec⟩⟩ := step_cases h
  · exact Keeps.raise (W := (· = .fault)) rfl F hfault
  · exact Keeps.setPc (W := (· = .pc)) rfl F hpc
  · have hpast : SameField s (s.setPc (s.pc + 2#16)) F := Keeps.setPc (W := (· = .pc)) rfl F hpc
    exact hpast.trans (exec_keeps hexec F (hF i ((s.fetches_instr_iff i).2 ⟨hrun, hle, hdec⟩)))

/-- States that agree in every field are one state. -/
theorem State.eq_of_sameField {s t : State} (h : ∀ F, SameField s t F) : t = s := by
  have hv : t.v = s.v := Vector.ext fun j hj => h (.reg (BitVec.ofFin ⟨j, hj⟩))
  have hi : t.i = s.i := h .index
  have hpc : t.pc = s.pc := h .pc
  have hstack : t.stack = s.stack := h .stack
  have hmem : t.mem = s.mem := h .mem
  have hdisp : t.disp = s.disp := h .disp
  have hdirty : t.needsRedraw = s.needsRedraw := h .dirty
  have hdt : t.dt = s.dt := h .delay
  have hst : t.st = s.st := h .sound
  have hcur : t.keyCur = s.keyCur := h .keyCur
  have hprev : t.keyPrev = s.keyPrev := h .keyPrev
  have htrans : t.keyTransition = s.keyTransition := h .keyTransition
  have hfault : t.fault = s.fault := h .fault
  have harg : t.rndArg = s.rndArg := h .rndArg
  have hdraws : t.draws = s.draws := h .draws
  have hdepth : t.stackDepth = s.stackDepth := h .stackDepth
  cases s
  cases t
  simp_all

theorem SameField.symm_trans {s t u : State} {F : StateField} (h : SameField s t F) (k : SameField s u F) :
    SameField u t F := by
  cases F <;> exact Eq.trans h (Eq.symm k)

/-- A state that agrees with `s` outside `D` is determined by its fields in `D`. -/
theorem Keeps.eq_of {D : StateField → Prop} {s t u : State} (h : Keeps D s t) (k : Keeps D s u)
    (hD : ∀ F, D F → SameField u t F) : t = u :=
  State.eq_of_sameField fun F => (Classical.em (D F)).elim (hD F) fun hF => (h F hF).symm_trans (k F hF)

/-! ## The statements -/

/-- The fields that no instruction reads. -/
def HiddenField (F : StateField) : Prop := F = .keyPrev ∨ F = .dirty ∨ F = .sound

theorem unread_hiddenField : Unread HiddenField := by
  constructor <;> simp [HiddenField]

theorem keeps_hiddenField (s : State) (key : Key) (dirty : Bool) (sound : Byte) :
    Keeps HiddenField s { s with keyPrev := key, needsRedraw := dirty, st := sound } := by
  intro F hF
  cases F
  case keyPrev => exact absurd (.inl rfl) hF
  case dirty => exact absurd (.inr (.inl rfl)) hF
  case sound => exact absurd (.inr (.inr rfl)) hF
  all_goals rfl

/-- Settles O42: the two runs agree but for the three fields, and no instruction writes the previous key. -/
theorem hiddenStateNeverInfluencesAStep : Obligations.HiddenStateNeverInfluencesAStep := by
  intro s t key dirty sound ht
  obtain ⟨t', ht', hagree⟩ := step_agrees unread_hiddenField (by simp [HiddenField]) (by simp [HiddenField])
    (keeps_hiddenField s key dirty sound) ht
  have hkey : t'.keyPrev = key := step_keeps (F := .keyPrev) ht' nofun nofun fun _ _ => id
  have heq : t' = { t with keyPrev := key, needsRedraw := t'.needsRedraw, st := t'.st } := by
    refine hagree.eq_of (keeps_hiddenField t _ _ _) ?_
    rintro _ (rfl | rfl | rfl)
    · exact hkey
    · rfl
    · rfl
  exact ⟨_, _, ht'.trans (congrArg _ heq)⟩

theorem unread_delay : Unread (· = .delay) := by
  constructor <;> simp

/-- Settles O43: LD Vx,DT apart, the two runs agree but for the timer. -/
theorem delayTimerIsReadByOneInstruction : Obligations.DelayTimerIsReadByOneInstruction := by
  intro i s t b hi ht
  obtain ⟨t', ht'⟩ := exec_next i (s.setDt b)
  have hagree : Keeps (· = .delay) t t' :=
    exec_agrees unread_delay (fun x hx => absurd hx (hi x)) (by simp) (Keeps.setDt rfl) ht ht'
  have heq : t' = t.setDt t'.dt := hagree.eq_of (Keeps.setDt rfl) (by rintro _ rfl; rfl)
  exact ⟨_, ht'.trans (congrArg _ heq)⟩

/-- The model's own fields, in which the random byte stands (log 5). -/
def RandomField (F : StateField) : Prop := F = .rndArg ∨ F = .draws

theorem unread_randomField : Unread RandomField := by
  constructor <;> simp [RandomField]

theorem keeps_randomField (s : State) (arg : Option Byte) (count : Nat) :
    Keeps RandomField s { s with rndArg := arg, draws := count } := by
  intro F hF
  cases F
  case rndArg => exact absurd (.inl rfl) hF
  case draws => exact absurd (.inr rfl) hF
  all_goals rfl

theorem Keeps.eq_of_randomField {t t' : State} {arg : Option Byte} {count : Nat} (h : Keeps RandomField t t')
    (harg : t'.rndArg = arg) (hdraws : t'.draws = count) : t' = { t with rndArg := arg, draws := count } := by
  refine h.eq_of (keeps_randomField t arg count) ?_
  rintro _ (rfl | rfl)
  · exact harg
  · exact hdraws

/-- Settles O59: RND apart, the two runs agree but for the random byte's fields, which nothing but RND writes. -/
theorem randomByteIsReadByRndAlone : Obligations.RandomByteIsReadByRndAlone := by
  refine ⟨fun i s t arg count hi ht => ?instruction, fun s t arg count hi ht => ?step⟩
  case instruction =>
    obtain ⟨t', ht'⟩ := exec_next i { s with rndArg := arg, draws := count }
    have hagree := exec_agrees unread_randomField (by simp [RandomField]) (fun x kk hx => absurd hx (hi x kk))
      (keeps_randomField s arg count) ht ht'
    have harg : t'.rndArg = arg := exec_keeps ht' .rndArg fun ⟨x, kk, hx⟩ => hi x kk hx
    have hdraws : t'.draws = count := exec_keeps ht' .draws fun ⟨x, kk, hx⟩ => hi x kk hx
    exact ht'.trans (congrArg _ (hagree.eq_of_randomField harg hdraws))
  case step =>
    have h := keeps_randomField s arg count
    obtain ⟨t', ht', hagree⟩ := step_agrees unread_randomField (by simp [RandomField])
      (fun x kk hx => absurd hx (hi x kk)) h ht
    have hother : ∀ j, State.Fetches { s with rndArg := arg, draws := count } (.instr j []) → ¬ j.writes .rndArg := by
      rintro _ hj ⟨x, kk, rfl⟩
      exact hi x kk ((h.fetches_iff unread_randomField _).1 hj)
    have harg : t'.rndArg = arg := step_keeps (F := .rndArg) ht' nofun nofun hother
    have hdraws : t'.draws = count := step_keeps (F := .draws) ht' nofun nofun hother
    exact ht'.trans (congrArg _ (hagree.eq_of_randomField harg hdraws))

end Sys2Proof.Machine
end

section
/-! SUPPORT. Proofs for the invariant of State.Inv: it holds after reset, and every step keeps it (spec 10_state.md,
60_exceptions.md section 2). -/

namespace Sys2Proof.Machine

theorem State.reset_inv : State.reset.Inv := ⟨Memory.wf_reset, fun _ _ => Nat.zero_le _, nofun, by decide, trivial⟩

/-- Settles O46: memory after reset lists nothing, the stack is empty, pc is 0x200, and no fault is recorded. -/
theorem invariantHoldsAtReset : Obligations.InvariantHoldsAtReset := ⟨State.reset_inv, State.reset_inv⟩

/-! ## Memory stays canonical (R10) -/

/-- A checked store of a block leaves memory canonical, whether it stores or takes its fault. -/
theorem checkedStore_mem_wf {s t : State} {bs : List Byte} {count : Nat} (hlen : bs.length = count) (hpos : count ≠ 0)
    (h : s.complete (s.checkRange count (s.writeBytes (s.effAddr 0) bs)) = .next t) (hwf : s.mem.wf) : t.mem.wf := by
  rcases State.complete_checkRange_cases h with ⟨hin, rfl⟩ | ⟨-, -, rfl⟩
  · exact State.wf_writeBytes hwf (hlen ▸ hin.resolve_right hpos)
  · exact hwf

theorem exec_mem_wf {i : Instr} {s t : State} (h : exec i s = .next t) (hwf : s.mem.wf) : t.mem.wf := by
  cases i
  case ldBVx x => exact checkedStore_mem_wf (decimalDigits_length _) (Nat.succ_ne_zero 2) h hwf
  case ldMemVx x => exact checkedStore_mem_wf (s.regsUpTo_length x) (Nat.succ_ne_zero _) h hwf
  all_goals
    have hmem : t.mem = s.mem := exec_keeps h .mem (by simp [Instr.writes])
    rwa [hmem]

/-! ## The stack stays within its depth and holds addresses up to 4096 (R15) -/

/-- The two clauses of the invariant about the stack. -/
structure State.StackBounded (s : State) : Prop where
  depth : ∀ d, s.stackDepth = some d → s.stack.length ≤ d
  returns : ∀ a ∈ s.stack, a.toNat ≤ 4096

theorem execRet_stackBounded {s t : State} {ignored : Nibble} (h : execRet ignored s = .next t) (hs : s.StackBounded) :
    t.StackBounded := by
  obtain ⟨hdepth, hreturns⟩ := hs
  cases hstack : s.stack with
  | nil =>
    rw [execRet_underflows hstack] at h
    cases h
    exact ⟨hdepth, hreturns⟩
  | cons a rest =>
    rw [execRet_pops hstack] at h
    rw [hstack] at hdepth hreturns
    cases h
    exact ⟨fun d hd => Nat.le_of_succ_le (hdepth d hd), fun b hb => hreturns b (List.mem_cons_of_mem _ hb)⟩

theorem execCallNnn_stackBounded {s t : State} {nnn : Addr} (h : execCallNnn nnn s = .next t) (hs : s.StackBounded)
    (hpc : s.pc.toNat ≤ 4096) : t.StackBounded := by
  by_cases hfull : s.StackFull
  · rw [execCallNnn_overflows hfull] at h
    cases h
    exact ⟨hs.depth, hs.returns⟩
  · rw [execCallNnn_pushes hfull] at h
    cases h
    refine ⟨fun d hd => ?_, List.forall_mem_cons.2 ⟨hpc, hs.returns⟩⟩
    have hne : s.stack.length ≠ d := fun e => hfull (Eq.trans hd (congrArg some e.symm))
    exact Nat.lt_of_le_of_ne (hs.depth d hd) hne

theorem exec_stackBounded {i : Instr} {s t : State} (h : exec i s = .next t) (hs : s.StackBounded)
    (hpc : s.pc.toNat ≤ 4096) : t.StackBounded := by
  cases i
  case ret b => exact execRet_stackBounded (ignored := b) h hs
  case callNnn nnn => exact execCallNnn_stackBounded (nnn := nnn) h hs hpc
  all_goals
    have hstack : t.stack = s.stack := exec_keeps h .stack (by simp [Instr.writes])
    have hdepth : t.stackDepth = s.stackDepth := exec_keeps h .stackDepth id
    exact ⟨by rw [hstack, hdepth]; exact hs.depth, by rw [hstack]; exact hs.returns⟩

/-! ## pc stays below the wrap (R14) -/

theorem addrOperand_le (nnn : Addr) : (addrOperand nnn).toNat ≤ 0x10FE := by
  have hn := nnn.isLt
  rw [addrOperand_toNat]
  omega

theorem skipIf_pc_le {s : State} (hpc : s.pc.toNat ≤ 4096) (c : Bool) : (s.skipIf c).pc.toNat ≤ 0x10FE := by
  rw [State.skipIf_eq, State.setPc_pc]
  cases c
  · exact Nat.le_trans hpc (by decide)
  · have hsum : (s.pc + 2#16).toNat ≤ s.pc.toNat + 2 := BitVec.toNat_add s.pc 2#16 ▸ Nat.mod_le _ _
    exact Nat.le_trans hsum (by omega)

theorem execRet_pc_le {s t : State} {ignored : Nibble} (h : execRet ignored s = .next t) (hpc : s.pc.toNat ≤ 4096)
    (hreturns : ∀ a ∈ s.stack, a.toNat ≤ 4096) : t.pc.toNat ≤ 4096 := by
  cases hstack : s.stack with
  | nil => rw [execRet_underflows hstack] at h; cases h; exact hpc
  | cons a rest => rw [execRet_pops hstack] at h; cases h; exact hreturns a (hstack ▸ List.mem_cons_self)

theorem execCallNnn_pc_le {s t : State} {nnn : Addr} (h : execCallNnn nnn s = .next t) (hpc : s.pc.toNat ≤ 4096) :
    t.pc.toNat ≤ 0x10FE := by
  by_cases hfull : s.StackFull
  · rw [execCallNnn_overflows hfull] at h; cases h; exact Nat.le_trans hpc (by decide)
  · rw [execCallNnn_pushes hfull] at h; cases h; exact addrOperand_le nnn

/-- From a pc that a fetch left, no instruction leads beyond 0x10FE: the largest is JP Vx,0xFFF with Vx = 0xFF (D8). -/
theorem exec_pc_le {i : Instr} {s t : State} (h : exec i s = .next t) (hlow : 2 ≤ s.pc.toNat) (hpc : s.pc.toNat ≤ 4096)
    (hreturns : ∀ a ∈ s.stack, a.toNat ≤ 4096) : t.pc.toNat ≤ 0x10FE := by
  have hle : s.pc.toNat ≤ 0x10FE := Nat.le_trans hpc (by decide)
  cases i
  case ret b => exact Nat.le_trans (execRet_pc_le (ignored := b) h hpc hreturns) (by decide)
  case callNnn nnn => exact execCallNnn_pc_le (nnn := nnn) h hpc
  case jpNnn nnn => cases h; exact addrOperand_le nnn
  case jpVxNnn x nnn =>
    cases h
    have hn := nnn.isLt
    have hv := (s.reg x).isLt
    rw [State.setPc_pc, addrOperand_add_wordOfByte_toNat]
    omega
  case seVxKk | sneVxKk | seVxVy | sneVxVy | skpVx | sknpVx => cases h; exact skipIf_pc_le hpc _
  case ldVxK x =>
    cases h
    split
    · exact hle
    · rw [State.setPc_pc, BitVec.toNat_sub_of_le hlow]
      exact Nat.le_trans (Nat.sub_le _ _) hle
  all_goals
    have hsame : t.pc = s.pc := exec_keeps h .pc (by simp [Instr.writes])
    rwa [hsame]

/-! ## A recorded fault stays explained (R168) -/

theorem State.faultExplained_of_running {s : State} (h : s.Running) : s.FaultExplained := by
  rw [State.FaultExplained, h]
  trivial

theorem Raises.faultExplained {s : State} {i : Instr} {f : Fault} (h : Raises s i f) : (s.raise f).FaultExplained := by
  cases h with
  | underflow b h => exact h
  | overflow nnn h => exact h
  | range i hpos hout => exact s.firstOutOfRange_toNat

theorem exec_faultExplained {i : Instr} {s t : State} (h : exec i s = .next t) (hrun : s.Running) : t.FaultExplained := by
  rcases exec_raises h with ⟨f, hf, rfl⟩ | ⟨-, ht⟩
  · exact hf.faultExplained
  · exact State.faultExplained_of_running (ht.trans hrun)

/-! ## Every step -/

theorem exec_keeps_inv {i : Instr} {s t : State} (h : exec i s = .next t) (hs : s.Inv) (hrun : s.Running)
    (hlow : 2 ≤ s.pc.toNat) (hpc : s.pc.toNat ≤ 4096) : t.Inv := by
  obtain ⟨hdepth, hreturns⟩ := exec_stackBounded h ⟨hs.depth, hs.returns⟩ hpc
  exact ⟨exec_mem_wf h hs.mem, hdepth, hreturns, exec_pc_le h hlow hpc hs.returns, exec_faultExplained h hrun⟩

/-- A fetch leaves pc between 2 and 4096 (R44). -/
theorem fetched_pc_toNat {a : Word} (h : a.toNat ≤ Config.lastFetch) : (a + 2#16).toNat = a.toNat + 2 := by
  rw [BitVec.toNat_add]
  exact Nat.mod_eq_of_lt (Nat.lt_of_le_of_lt (Nat.add_le_add_right h 2) (by decide))

theorem fetched_keeps_inv {s : State} (hs : s.Inv) (hrun : s.Running) (hpc : s.pc.toNat ≤ Config.lastFetch) :
    (s.setPc (s.pc + 2#16)).Inv := by
  refine ⟨hs.mem, hs.depth, hs.returns, ?_, State.faultExplained_of_running hrun⟩
  rw [State.setPc_pc, fetched_pc_toNat hpc]
  exact Nat.le_trans (Nat.add_le_add_right hpc 2) (by decide)

theorem step_keeps_inv {s t : State} (hs : s.Inv) (h : step s = .next t) : t.Inv := by
  obtain ⟨hrun, ⟨hpc, rfl⟩ | ⟨hpc, -, rfl⟩ | ⟨hpc, i, -, hexec⟩⟩ := step_cases h
  · exact ⟨hs.mem, hs.depth, hs.returns, hs.pc, rfl, hpc⟩
  · exact fetched_keeps_inv hs hrun hpc
  · have hpast := fetched_pc_toNat hpc
    refine exec_keeps_inv hexec (fetched_keeps_inv hs hrun hpc) hrun ?_ ?_
    · rw [State.setPc_pc, hpast]
      exact Nat.le_add_left 2 _
    · rw [State.setPc_pc, hpast]
      exact Nat.add_le_add_right hpc 2

/-- Settles O47: each clause of the invariant is kept by the fetch and by every instruction. -/
theorem everyStepKeepsTheInvariant : Obligations.EveryStepKeepsTheInvariant := fun _ _ hs h => step_keeps_inv hs h

end Sys2Proof.Machine
end

section
/-! SUPPORT. Proofs for schedules of host commands: the invariant, the load window, RESET, the reference schedule and the
dirty flag (spec 00_scope.md section 5, 60_exceptions.md sections 2, 6 and 7, 70_reset_and_hazards.md sections 1 to 3). -/

namespace Sys2Proof.Machine

/-! ## Schedules (R3, R209) -/

/-- What every command of a schedule keeps, the schedule keeps. -/
theorem Block.run_keeps {P : Block → Prop} {cs : List Command}
    (hP : ∀ c ∈ cs, ∀ (b b' : Block) (r : Response), b.apply c = .next (r, b') → P b → P b') {b b' : Block}
    {rs : List Response} (h : b.run cs = .next (rs, b')) (hb : P b) : P b' := by
  induction cs generalizing b rs with
  | nil => cases h; exact hb
  | cons c cs ih =>
    obtain ⟨r, b1, rs', happly, hrun, -⟩ := Block.run_cons_cases h
    exact ih (fun c' hc' => hP c' (List.mem_cons_of_mem c hc')) hrun (hP c List.mem_cons_self b b1 r happly hb)

theorem Block.run_cons {b b1 b2 : Block} {c : Command} {cs : List Command} {r : Response} {rs : List Response}
    (h : b.apply c = .next (r, b1)) (hcs : b1.run cs = .next (rs, b2)) : b.run (c :: cs) = .next (r :: rs, b2) := by
  simp only [Block.run, h, hcs]

theorem Block.run_append {b b1 b2 : Block} {cs ds : List Command} {rs qs : List Response}
    (h : b.run cs = .next (rs, b1)) (hds : b1.run ds = .next (qs, b2)) : b.run (cs ++ ds) = .next (rs ++ qs, b2) := by
  induction cs generalizing b rs with
  | nil => cases h; exact hds
  | cons c cs ih =>
    obtain ⟨r, b', rs', happly, hrun, rfl⟩ := Block.run_cons_cases h
    exact Block.run_cons happly (ih hrun)

/-! ## The invariant -/

/-- The argument of STEP has no part in the invariant. -/
theorem State.Inv.withRndArg {s : State} (h : s.Inv) (arg : Option Byte) : State.Inv { s with rndArg := arg } :=
  ⟨h.mem, h.depth, h.returns, h.pc, h.fault⟩

theorem State.resetCommand_inv (s : State) : s.resetCommand.Inv :=
  ⟨State.reset_inv.mem, fun _ _ => Nat.zero_le _, State.reset_inv.returns, State.reset_inv.pc, State.reset_inv.fault⟩

theorem Block.apply_keeps_inv {b b' : Block} {c : Command} {r : Response} (h : b.apply c = .next (r, b'))
    (hb : b.core.Inv) : b'.core.Inv := by
  cases c
  case reset => cases h; exact b.core.resetCommand_inv
  case load bytes =>
    obtain ⟨-, ⟨hfits, -, rfl⟩ | ⟨-, -, rfl⟩⟩ := Block.apply_load_cases h
    · rw [State.writeBytes_eq]
      exact ⟨State.wf_writeBytes hb.mem hfits, hb.depth, hb.returns, hb.pc, hb.fault⟩
    · exact hb
  case step rnd =>
    obtain ⟨t, hstep, -, rfl⟩ | ⟨f, -, -, rfl⟩ := Block.apply_step_cases h
    · exact (step_keeps_inv (hb.withRndArg (some rnd)) hstep).withRndArg none
    · exact hb
  case readDisplay | needsRedraw => cases h; exact hb
  all_goals cases h; exact ⟨hb.mem, hb.depth, hb.returns, hb.pc, hb.fault⟩

/-- Settles O48: a STEP is a step, RESET and LOAD establish the clauses they touch, and the other commands touch none. -/
theorem everyScheduleKeepsTheInvariant : Obligations.EveryScheduleKeepsTheInvariant := fun _ _ _ _ hb h =>
  Block.run_keeps (P := fun b => b.core.Inv) (fun _ _ _ _ _ happly => Block.apply_keeps_inv happly) h hb

/-! ## LOAD (R202, R203) -/

theorem Block.apply_load_fits {b : Block} {bytes : List Byte} (hmay : b.mayLoad = true)
    (hfits : Config.progBase + bytes.length ≤ Config.memSize) :
    b.apply (.load bytes) = .next (.ok, { b with core := b.core.writeBytes Config.progBase bytes }) := by
  rw [Block.apply, if_pos hmay, State.load, if_pos hfits]

theorem Block.apply_load_rejected {b : Block} {bytes : List Byte} (hmay : b.mayLoad = true)
    (hlong : Config.memSize < Config.progBase + bytes.length) : b.apply (.load bytes) = .next (.loadError, b) := by
  rw [Block.apply, if_pos hmay, State.load, if_neg (Nat.not_le.2 hlong)]

theorem Block.apply_load_closed {b : Block} (h : b.stepped = true) (bytes : List Byte) :
    b.apply (.load bytes) = .refused .loadOutsideWindow := by
  have hclosed : ¬ b.mayLoad = true := by rw [Block.mayLoad, h]; exact Bool.false_ne_true
  rw [Block.apply, if_neg hclosed]

/-- The `j`-th byte of a block written at `a`. -/
theorem State.readByte_writeBytes_add (s : State) (a : Nat) {bs : List Byte} {j : Nat} (hj : j < bs.length) (d : Byte) :
    (s.writeBytes a bs).readByte (a + j) = bs.getD j d := by
  rw [State.readByte_writeBytes, if_pos (Nat.le_add_right a j), Nat.add_sub_cancel_left, List.getD_eq_getElem _ _ hj,
    List.getD_eq_getElem _ _ hj]

/-- Settles O52: inside its window LOAD is one block of bytes or nothing, as the length decides. -/
theorem loadCopiesAFittingImage : Obligations.LoadCopiesAFittingImage := by
  intro b bytes hmay
  refine ⟨fun hfits => ?copies, fun hlong => Block.apply_load_rejected hmay hlong⟩
  case copies =>
    exact ⟨_, Block.apply_load_fits hmay hfits, fun j hj => State.readByte_writeBytes_add b.core _ hj 0#8,
      OnlyChanges.writeBytes b.core _ bytes⟩

/-- No command but RESET opens LOAD's window again. -/
theorem Block.apply_keeps_stepped {b b' : Block} {c : Command} {r : Response} (hc : c ≠ .reset)
    (h : b.apply c = .next (r, b')) (hb : b.stepped = true) : b'.stepped = true := by
  cases c
  case reset => exact absurd rfl hc
  case load bytes => obtain ⟨-, ⟨-, -, rfl⟩ | ⟨-, -, rfl⟩⟩ := Block.apply_load_cases h <;> exact hb
  case step rnd => exact Block.apply_step_stepped h
  all_goals cases h; exact hb

/-- Settles O53: the STEP closes the window, no command of the schedule opens it, and RESET does. -/
theorem loadHasNoMoveAfterAStep : Obligations.LoadHasNoMoveAfterAStep := by
  intro b b1 b2 rnd r rs cs bytes hstep hcs hrun
  have hstepped : b2.stepped = true := Block.run_keeps (P := fun b => b.stepped = true)
    (fun c hc _ _ _ => Block.apply_keeps_stepped fun e => hcs (e ▸ hc)) hrun (Block.apply_step_stepped hstep)
  exact ⟨Block.apply_load_closed hstepped bytes, _, rfl, rfl⟩

/-! ## RESET (R200, R201) -/

theorem Memory.unlisted_outside_font {a : Nat} (h : ¬ (0x50 ≤ a ∧ a ≤ 0x9F)) : Memory.unlisted a = 0#8 :=
  if_neg fun ⟨hlo, hhi⟩ => h ⟨hlo, Nat.le_of_lt_succ hhi⟩

theorem Memory.unlisted_font {j : Nat} (h : j < 80) : Memory.unlisted (0x50 + j) = fontTable.getD j 0#8 := by
  have hin : Config.fontBase ≤ 0x50 + j ∧ 0x50 + j < Config.fontBase + Config.fontSize :=
    ⟨Nat.le_add_right _ _, Nat.add_lt_add_left h _⟩
  rw [Memory.unlisted, if_pos hin, Nat.add_sub_cancel_left]

theorem State.reset_reg (r : Reg) : State.reset.reg r = 0#8 := Vector.getElem_replicate _

theorem State.reset_pixel (px py : Nat) : State.reset.pixel px py = false := Display.get_clear px py

/-- Settles O54: every field is a literal of the reset state, or the parameter and the count that RESET leaves; memory lists
nothing, so a byte reads as its reset contents. -/
theorem resetLeavesTheseValues : Obligations.ResetLeavesTheseValues := by
  intro b
  refine ⟨b.core.resetCommand, rfl, rfl, fun a _ hfont => Memory.unlisted_outside_font hfont, State.reset_reg, rfl, rfl,
    State.reset_pixel, rfl, rfl, rfl, rfl, rfl, rfl, rfl, fun j hj => Memory.unlisted_font hj, rfl, rfl, rfl⟩

/-! ## Host commands on a halted machine (R184, D24) -/

/-- Settles O55: none of the six looks at the fault status or writes it. -/
theorem hostCommandsIgnoreTheFaultStatus : Obligations.HostCommandsIgnoreTheFaultStatus := by
  intro b b' f c r hc h
  cases c
  case reset | load | step => simp at hc
  all_goals cases h; exact ⟨rfl, rfl⟩

/-! ## STEP as a command (R4, R167, R168) -/

theorem Block.apply_step_of_next {b : Block} {t : State} {rnd : Byte} (h : step { b.core with rndArg := some rnd } = .next t) :
    b.apply (.step rnd) = .next (stepResponse b.core t, { core := { t with rndArg := none }, stepped := true }) := by
  rw [Block.apply, State.stepCommand_next h]

theorem Block.apply_step_of_halted {b : Block} {f : Fault} (h : b.core.fault = some f) (rnd : Byte) :
    b.apply (.step rnd) = .next (.fault f, { core := b.core, stepped := true }) := by
  rw [Block.apply, State.stepCommand_halted h]

/-- A STEP on a reserved word records no fault. -/
theorem step_fault_of_reserved {s t : State} {w : Word} (h : s.Fetches (.reserved w [])) (ht : step s = .next t) :
    t.fault = none := by
  obtain rfl := Host.Outcome.next.inj ((step_of_fetches_reserved h).symm.trans ht)
  exact h.1

/-- Settles O58: the answer looks at the fault first and then at the word fetched, which the argument does not change. -/
theorem stepCommandAnswersWhatItExecuted : Obligations.StepCommandAnswersWhatItExecuted := by
  intro b rnd hrun
  obtain ⟨t, ht⟩ := step_next (s := { b.core with rndArg := some rnd }) hrun
  refine ⟨t, _, ht, Block.apply_step_of_next ht, fun f => stepResponse_of_fault, fun w hw => ?reserved,
    fun hnone i hi => stepResponse_of_instr hnone hi⟩
  case reserved =>
    exact stepResponse_of_reserved (step_fault_of_reserved (s := { b.core with rndArg := some rnd }) hw ht) hw

/-! ## The reference schedule (R205) -/

/-- A STEP answers on every block and leaves the current key. -/
theorem Block.apply_step_keyCur (b : Block) (rnd : Byte) :
    ∃ r b', b.apply (.step rnd) = .next (r, b') ∧ b'.core.keyCur = b.core.keyCur := by
  cases hf : b.core.fault with
  | some f => exact ⟨_, _, Block.apply_step_of_halted hf rnd, rfl⟩
  | none =>
    obtain ⟨t, ht⟩ := step_next (s := { b.core with rndArg := some rnd }) hf
    exact ⟨_, _, Block.apply_step_of_next ht, step_keeps (F := .keyCur) ht nofun nofun fun _ _ => id⟩

/-- Key presses run from every block and leave the last key as the current one. -/
theorem Block.run_keyPresses (keys : List Key) (b : Block) :
    ∃ rs b', b.run (keys.map Command.keyPress) = .next (rs, b') ∧ b'.core.keyCur = keys.getLastD b.core.keyCur := by
  induction keys generalizing b with
  | nil => exact ⟨[], b, rfl, rfl⟩
  | cons key keys ih =>
    obtain ⟨rs, b', hrun, hkey⟩ := ih { b with core := b.core.keyPress key }
    exact ⟨_, b', Block.run_cons (Block.apply_keyPress b key) hrun, by rw [hkey, List.getLastD_cons]; rfl⟩

/-- Settles O56: the presses and the STEP answer on every block, the STEP leaves the key, and what follows it clears the
flag last. -/
theorem referenceIterationClearsTheTransition : Obligations.ReferenceIterationClearsTheTransition := by
  intro b keys rnd
  obtain ⟨rs, b1, hkeys, hcur⟩ := Block.run_keyPresses keys b
  obtain ⟨r, b2, hstep, hcur2⟩ := b1.apply_step_keyCur rnd
  refine ⟨⟨_, _, Block.run_append hkeys (Block.run_cons hstep rfl), rfl, hcur2.trans hcur⟩, fun late => ?late⟩
  case late => exact ⟨_, _, Block.run_append hkeys (Block.run_cons hstep rfl), rfl, rfl⟩

/-! ## The dirty flag (R17, R211) -/

/-- A grid that changed is marked dirty. -/
def ChangeMarked (d : Display) (t : State) : Prop :=
  t.needsRedraw = true ∨ ∀ px py, t.pixel px py = Display.get d px py

theorem drawn_changeMarked (s : State) (x y : Reg) (n : Nibble) : ChangeMarked s.disp (s.drawn x y n) := by
  by_cases hdirty : (s.drawn x y n).needsRedraw = true
  · exact .inl hdirty
  · refine .inr fun px py => ?_
    by_cases hgrid : px < 128 ∧ py < 64
    · have hout : s.drwCovers x y n px py = false := Bool.eq_false_iff.2 fun hc =>
        hdirty ((s.drawn_dirty x y n).2 (.inr ⟨px, py, hgrid.1, hgrid.2, hc⟩))
      rw [s.drawn_pixel x y n px py hgrid.1, hout, Bool.xor_false]
      rfl
    · exact s.drawn_pixel_outside x y n hgrid

/-- CLS marks the display always, DRW when it flips a pixel, and no other instruction writes the grid. -/
theorem exec_changeMarked {i : Instr} {s t : State} (h : exec i s = .next t) : ChangeMarked s.disp t := by
  cases i
  case cls => cases h; exact .inl rfl
  case drwVxVyN x y n =>
    rcases State.complete_checkRange_cases h with ⟨-, rfl⟩ | ⟨-, -, rfl⟩
    · exact drawn_changeMarked s x y n
    · exact .inr fun _ _ => rfl
  all_goals
    have hdisp : t.disp = s.disp := exec_keeps h .disp (by simp [Instr.writes])
    exact .inr fun px py => congrArg (Display.get · px py) hdisp

theorem step_changeMarked {s t : State} (h : step s = .next t) : ChangeMarked s.disp t := by
  obtain ⟨-, ⟨-, rfl⟩ | ⟨-, -, rfl⟩ | ⟨-, i, -, hexec⟩⟩ := step_cases h
  · exact .inr fun _ _ => rfl
  · exact .inr fun _ _ => rfl
  · exact exec_changeMarked (s := s.setPc (s.pc + 2#16)) hexec

/-- CLEAR_REDRAW and RESET apart, a command that changes the grid marks it dirty. -/
theorem Block.apply_changeMarked {b b' : Block} {c : Command} {r : Response} (hreset : c ≠ .reset)
    (h : b.apply c = .next (r, b')) : ChangeMarked b.core.disp b'.core := by
  cases c
  case reset => exact absurd rfl hreset
  case load bytes =>
    obtain ⟨-, ⟨-, -, rfl⟩ | ⟨-, -, rfl⟩⟩ := Block.apply_load_cases h
    · exact .inr fun _ _ => State.writeBytes_pixel _ _ _ _ _
    · exact .inr fun _ _ => rfl
  case step rnd =>
    obtain ⟨t, hstep, -, rfl⟩ | ⟨f, -, -, rfl⟩ := Block.apply_step_cases h
    · exact step_changeMarked (s := { b.core with rndArg := some rnd }) (t := t) hstep
    · exact .inr fun _ _ => rfl
  all_goals cases h; exact .inr fun _ _ => rfl

/-- A display is marked against an older grid as long as no command clears the flag. -/
theorem Block.apply_keeps_changeMarked {d : Display} {b b' : Block} {c : Command} {r : Response} (hreset : c ≠ .reset)
    (hclear : c ≠ .clearRedraw) (h : b.apply c = .next (r, b')) (hb : ChangeMarked d b.core) : ChangeMarked d b'.core := by
  rcases hb with hdirty | hsame
  · exact .inl (Block.apply_keeps_dirty hclear hreset h hdirty)
  · exact (Block.apply_changeMarked hreset h).imp_right fun hstep px py => (hstep px py).trans (hsame px py)

/-- A frame of the reference protocol answers the grid and leaves the core with it, the flag cleared (R211). -/
theorem Block.run_redrawFrame_append {b b' : Block} {cs : List Command} {rs : List Response}
    (h : b.run (redrawFrame ++ cs) = .next (rs, b')) :
    ∃ qs, rs = [.redraw b.core.needsRedraw, .display b.core.disp, .done] ++ qs ∧
      Block.run { b with core := b.core.clearRedraw } cs = .next (qs, b') := by
  obtain ⟨r1, b1, rs1, h1, hrun1, rfl⟩ := Block.run_cons_cases h
  obtain ⟨r2, b2, rs2, h2, hrun2, rfl⟩ := Block.run_cons_cases hrun1
  obtain ⟨r3, b3, rs3, h3, hrun3, rfl⟩ := Block.run_cons_cases hrun2
  cases h1
  cases h2
  cases h3
  exact ⟨rs3, rfl, hrun3⟩

/-- Settles O57: right after the frame the grid is the one answered, and from there a change is marked as long as nothing
clears the flag. -/
theorem dirtyFlagMissesNoChange : Obligations.DirtyFlagMissesNoChange := by
  intro b b' cs rs hreset hclear
  have hne : ∀ c ∈ cs, c ≠ .reset ∧ c ≠ .clearRedraw := fun c hc => ⟨fun e => hreset (e ▸ hc), fun e => hclear (e ▸ hc)⟩
  refine ⟨fun h => ?frame, fun h hdirty => ?dirty⟩
  case frame =>
    obtain ⟨qs, rfl, hrun⟩ := Block.run_redrawFrame_append h
    have hmarked : ChangeMarked b.core.disp b'.core := Block.run_keeps (P := fun b1 => ChangeMarked b.core.disp b1.core)
      (fun c hc _ _ _ => Block.apply_keeps_changeMarked (hne c hc).1 (hne c hc).2) hrun (.inr fun _ _ => rfl)
    refine ⟨b.core.disp, rfl, fun ⟨px, py, hdiff⟩ => hmarked.resolve_right fun hsame => hdiff (hsame px py)⟩
  case dirty =>
    exact Block.run_keeps (P := fun b1 => b1.core.needsRedraw = true)
      (fun c hc _ _ _ => Block.apply_keeps_dirty (hne c hc).2 (hne c hc).1) h hdirty

end Sys2Proof.Machine
end
